-- ==== Sys2Proof/Word.lean ====
section
/-! DEFINITION. The bit-vector types of the machine (spec/00_scope.md R5, R6). Every value is unsigned. -/

namespace Sys2Proof

/-- An 8-bit value: a memory byte, a general register, a timer (R5). -/
abbrev Byte := BitVec 8

/-- A 16-bit value: an opcode, `I`, `pc`, a stack entry (R5). -/
abbrev Word := BitVec 16

/-- The 12-bit immediate address `NNN` (R82). -/
abbrev Addr := BitVec 12

/-- A general-register index, 0x0 to 0xF (R21, R83). -/
abbrev Reg := Fin 16

/-- The 4-bit row count `N` of DXYN, 0 to 15 (R82). -/
abbrev Count := Fin 16

/-- Register VF, the carry / borrow / collision flag (R22). -/
abbrev VF : Reg := 15

end Sys2Proof
end

