-- ==== Sys2Proof/Syntax.lean ====
section
/-! DEFINITION. The instruction set: one constructor for each of the 34 rows of spec/opcode_table.json
(spec/30_encoding.md R85 to R91). The operand types have exactly the widths of the encoding's fields (R81). -/

namespace Sys2Proof

/-- The 34 instructions, in the order of the opcode table. The pattern of each row stands beside it. -/
inductive Instr where
  | cls                                            -- 00E0  CLS
  | ret                                            -- 00EE  RET
  | jpAddr (nnn : Addr)                            -- 1NNN  JP addr
  | callAddr (nnn : Addr)                          -- 2NNN  CALL addr
  | seVxByte (x : Reg) (nn : Byte)                 -- 3XNN  SE Vx, byte
  | sneVxByte (x : Reg) (nn : Byte)                -- 4XNN  SNE Vx, byte
  | seVxVy (x y : Reg)                             -- 5XY0  SE Vx, Vy
  | ldVxByte (x : Reg) (nn : Byte)                 -- 6XNN  LD Vx, byte
  | addVxByte (x : Reg) (nn : Byte)                -- 7XNN  ADD Vx, byte
  | ldVxVy (x y : Reg)                             -- 8XY0  LD Vx, Vy
  | orVxVy (x y : Reg)                             -- 8XY1  OR Vx, Vy
  | andVxVy (x y : Reg)                            -- 8XY2  AND Vx, Vy
  | xorVxVy (x y : Reg)                            -- 8XY3  XOR Vx, Vy
  | addVxVy (x y : Reg)                            -- 8XY4  ADD Vx, Vy
  | subVxVy (x y : Reg)                            -- 8XY5  SUB Vx, Vy
  | shrVxVy (x y : Reg)                            -- 8XY6  SHR Vx, Vy
  | subnVxVy (x y : Reg)                           -- 8XY7  SUBN Vx, Vy
  | shlVxVy (x y : Reg)                            -- 8XYE  SHL Vx, Vy
  | sneVxVy (x y : Reg)                            -- 9XY0  SNE Vx, Vy
  | ldIAddr (nnn : Addr)                           -- ANNN  LD I, addr
  | jpV0Addr (nnn : Addr)                          -- BNNN  JP V0, addr
  | rndVxByte (x : Reg) (nn : Byte)                -- CXNN  RND Vx, byte
  | drwVxVyNibble (x y : Reg) (n : Count)          -- DXYN  DRW Vx, Vy, nibble
  | skpVx (x : Reg)                                -- EX9E  SKP Vx
  | sknpVx (x : Reg)                               -- EXA1  SKNP Vx
  | ldVxDT (x : Reg)                               -- FX07  LD Vx, DT
  | ldVxK (x : Reg)                                -- FX0A  LD Vx, K
  | ldDTVx (x : Reg)                               -- FX15  LD DT, Vx
  | ldSTVx (x : Reg)                               -- FX18  LD ST, Vx
  | addIVx (x : Reg)                               -- FX1E  ADD I, Vx
  | ldFVx (x : Reg)                                -- FX29  LD F, Vx
  | ldBVx (x : Reg)                                -- FX33  LD B, Vx
  | ldMemVx (x : Reg)                              -- FX55  LD [I], Vx
  | ldVxMem (x : Reg)                              -- FX65  LD Vx, [I]
deriving DecidableEq, Repr

end Sys2Proof
end

