-- ==== Sys2Proof/Config.lean ====
section
/-! DEFINITION. What is fixed for one CORE: the sizes of spec/00_scope.md R5, and the one value R5 leaves OPEN,
`RandomByte`, as a constant without a body. The other parameter, `FONT`, is held in the state (Machine/State.lean,
log entry 1), so that every statement about all states holds for every font. -/

namespace Sys2Proof.Config

/-- Bytes of memory, addresses 0x000 to 0xFFF (R5, R50). -/
abbrev memBytes : Nat := 4096

/-- Bytes of the font region, addresses 0x000 to 0x04F (R5, R51). -/
abbrev fontBytes : Nat := 80

/-- Program load base and reset `pc` (R5). -/
abbrev programBase : Nat := 0x200

/-- Longest program `loadProgram` accepts (R5, R69). -/
abbrev maxProgram : Nat := 3584

/-- `RandomByte` (R5, R163, decision D14): the byte the `n`-th CXNN draws. A free value: nothing is known of it
(log entry 2). -/
opaque randomByte : Nat → Byte

end Sys2Proof.Config
end

