-- ==== Sys2Proof/WellFormed.lean ====
section
/-! DEFINITION. Well-formedness of what enters the CORE from outside.

An instruction needs no check: the operand types of `Instr` have exactly the widths of the encoding's fields
(spec/30_encoding.md R81 to R83: "All 16 values are legal in every instruction that takes them"), so every term of
`Instr` is a well-formed instruction. What is left to check is what the host hands in through the ports: a program's
length (spec/20_memory.md R69) and a key index (spec/60_exceptions.md R270). -/

namespace Sys2Proof

/-- R69: `loadProgram` accepts at most 4096 - 512 = 3584 bytes. The bytes themselves are not checked ("It does not
validate instruction well-formedness"). -/
def programFits (bytes : List Byte) : Bool :=
  bytes.length ≤ Config.maxProgram

/-- R270: a key index is 0 to 15. -/
def keyIndexOk (index : Nat) : Bool :=
  index < 16

end Sys2Proof
end

