-- ==== Sys2Proof/Decode.lean ====
section
/-! DEFINITION. Fields, decoder and encoder (spec/30_encoding.md R80 to R92). Decoding is a pure function of the 16-bit
word; a word that matches no pattern is Unknown (R84). -/

namespace Sys2Proof

/-! ## Fields (R81) -/

/-- `op[15:12]`, the family. -/
def opFamily (op : Word) : Nat := (op.extractLsb' 12 4).toNat

/-- `op[11:8]`, register index X. -/
def opX (op : Word) : Reg := (op.extractLsb' 8 4).toFin

/-- `op[7:4]`, register index Y. -/
def opY (op : Word) : Reg := (op.extractLsb' 4 4).toFin

/-- `op[3:0]`, the row count N. -/
def opN (op : Word) : Count := (op.extractLsb' 0 4).toFin

/-- `op[7:0]`, the byte immediate NN. -/
def opNN (op : Word) : Byte := op.extractLsb' 0 8

/-- `op[11:0]`, the address immediate NNN. -/
def opNNN (op : Word) : Addr := op.extractLsb' 0 12

/-! ## Decode (R84 to R90) -/

/-- Family 0x0 (R85): exactly two words are instructions. -/
def decodeFamily0 (op : Word) : Option Instr :=
  if op = 0x00E0 then some .cls
  else if op = 0x00EE then some .ret
  else none

/-- Family 0x8 (R88), by `op[3:0]`. -/
def decodeFamily8 (op : Word) : Option Instr :=
  match (opN op).val with
  | 0x0 => some (.ldVxVy (opX op) (opY op))
  | 0x1 => some (.orVxVy (opX op) (opY op))
  | 0x2 => some (.andVxVy (opX op) (opY op))
  | 0x3 => some (.xorVxVy (opX op) (opY op))
  | 0x4 => some (.addVxVy (opX op) (opY op))
  | 0x5 => some (.subVxVy (opX op) (opY op))
  | 0x6 => some (.shrVxVy (opX op) (opY op))
  | 0x7 => some (.subnVxVy (opX op) (opY op))
  | 0xE => some (.shlVxVy (opX op) (opY op))
  | _ => none

/-- Family 0xE (R89), by `op[7:0]`. -/
def decodeFamilyE (op : Word) : Option Instr :=
  match (opNN op).toNat with
  | 0x9E => some (.skpVx (opX op))
  | 0xA1 => some (.sknpVx (opX op))
  | _ => none

/-- Family 0xF (R90), by `op[7:0]`. -/
def decodeFamilyF (op : Word) : Option Instr :=
  match (opNN op).toNat with
  | 0x07 => some (.ldVxDT (opX op))
  | 0x0A => some (.ldVxK (opX op))
  | 0x15 => some (.ldDTVx (opX op))
  | 0x18 => some (.ldSTVx (opX op))
  | 0x1E => some (.addIVx (opX op))
  | 0x29 => some (.ldFVx (opX op))
  | 0x33 => some (.ldBVx (opX op))
  | 0x55 => some (.ldMemVx (opX op))
  | 0x65 => some (.ldVxMem (opX op))
  | _ => none

/-- R84: the instruction a word stands for; `none` is Unknown. (The family is a 4-bit number: there is none above 0xF.) -/
def decodeWord (op : Word) : Option Instr :=
  match opFamily op with
  | 0x0 => decodeFamily0 op
  | 0x1 => some (.jpAddr (opNNN op))
  | 0x2 => some (.callAddr (opNNN op))
  | 0x3 => some (.seVxByte (opX op) (opNN op))
  | 0x4 => some (.sneVxByte (opX op) (opNN op))
  | 0x5 => if opN op = 0 then some (.seVxVy (opX op) (opY op)) else none
  | 0x6 => some (.ldVxByte (opX op) (opNN op))
  | 0x7 => some (.addVxByte (opX op) (opNN op))
  | 0x8 => decodeFamily8 op
  | 0x9 => if opN op = 0 then some (.sneVxVy (opX op) (opY op)) else none
  | 0xA => some (.ldIAddr (opNNN op))
  | 0xB => some (.jpV0Addr (opNNN op))
  | 0xC => some (.rndVxByte (opX op) (opNN op))
  | 0xD => some (.drwVxVyNibble (opX op) (opY op) (opN op))
  | 0xE => decodeFamilyE op
  | 0xF => decodeFamilyF op
  | _ => none

/-- What decoding a byte sequence gives: an instruction or a rejection by name, with the bytes that follow. -/
inductive Decoded where
  /-- The first two bytes are an instruction. -/
  | instr (i : Instr) (rest : List Byte)
  /-- The first two bytes are an Unknown word (R84, R92). -/
  | unknownOpcode (op : Word) (rest : List Byte)
  /-- Fewer than two bytes: no word to decode (R80: every instruction is 2 bytes). -/
  | truncated
deriving DecidableEq, Repr

/-- The word of two bytes, the byte at the lower address first (R59). -/
def wordOfBytes (hi lo : Byte) : Word := hi ++ lo

/-- The two bytes of a word as memory holds them: the high byte at the lower address (R59, R80). -/
def highByte (op : Word) : Byte := op.extractLsb' 8 8

/-- The byte of a word at the higher address (R59). -/
def lowByte (op : Word) : Byte := op.extractLsb' 0 8

/-- Decoding any bytes; a decoder always consumes exactly 2 bytes (R80). -/
def decodeBytes : List Byte → Decoded
  | hi :: lo :: rest =>
    match decodeWord (wordOfBytes hi lo) with
    | some i => .instr i rest
    | none => .unknownOpcode (wordOfBytes hi lo) rest
  | _ => .truncated

/-- The instruction of the table's word `w` of `nbits` bits, the bits above `nbits` zero, laid out as memory holds it. -/
def decodeTableWord (nbits w : Nat) : Option Instr :=
  let op : Word := BitVec.ofNat 16 (w % 2 ^ nbits)
  match decodeBytes [highByte op, lowByte op] with
  | .instr i _ => some i
  | .unknownOpcode _ _ => none
  | .truncated => none

/-! ## Encode (the same tables, R85 to R90) -/

/-- The 4-bit field of a register index or row count. -/
def nibble (r : Fin 16) : BitVec 4 := BitVec.ofFin r

/-- A word of a family, X and NN. -/
def encodeXNN (family : BitVec 4) (x : Reg) (nn : Byte) : Word := family ++ nibble x ++ nn

/-- A word of a family, X, Y and the low nibble. -/
def encodeXYN (family : BitVec 4) (x y : Reg) (n : BitVec 4) : Word := family ++ nibble x ++ nibble y ++ n

/-- A word of a family and NNN. -/
def encodeNNN (family : BitVec 4) (nnn : Addr) : Word := family ++ nnn

/-- The word of an instruction (R85 to R90). -/
def encode : Instr → Word
  | .cls => 0x00E0
  | .ret => 0x00EE
  | .jpAddr nnn => encodeNNN 0x1 nnn
  | .callAddr nnn => encodeNNN 0x2 nnn
  | .seVxByte x nn => encodeXNN 0x3 x nn
  | .sneVxByte x nn => encodeXNN 0x4 x nn
  | .seVxVy x y => encodeXYN 0x5 x y 0x0
  | .ldVxByte x nn => encodeXNN 0x6 x nn
  | .addVxByte x nn => encodeXNN 0x7 x nn
  | .ldVxVy x y => encodeXYN 0x8 x y 0x0
  | .orVxVy x y => encodeXYN 0x8 x y 0x1
  | .andVxVy x y => encodeXYN 0x8 x y 0x2
  | .xorVxVy x y => encodeXYN 0x8 x y 0x3
  | .addVxVy x y => encodeXYN 0x8 x y 0x4
  | .subVxVy x y => encodeXYN 0x8 x y 0x5
  | .shrVxVy x y => encodeXYN 0x8 x y 0x6
  | .subnVxVy x y => encodeXYN 0x8 x y 0x7
  | .shlVxVy x y => encodeXYN 0x8 x y 0xE
  | .sneVxVy x y => encodeXYN 0x9 x y 0x0
  | .ldIAddr nnn => encodeNNN 0xA nnn
  | .jpV0Addr nnn => encodeNNN 0xB nnn
  | .rndVxByte x nn => encodeXNN 0xC x nn
  | .drwVxVyNibble x y n => encodeXYN 0xD x y (nibble n)
  | .skpVx x => encodeXNN 0xE x 0x9E
  | .sknpVx x => encodeXNN 0xE x 0xA1
  | .ldVxDT x => encodeXNN 0xF x 0x07
  | .ldVxK x => encodeXNN 0xF x 0x0A
  | .ldDTVx x => encodeXNN 0xF x 0x15
  | .ldSTVx x => encodeXNN 0xF x 0x18
  | .addIVx x => encodeXNN 0xF x 0x1E
  | .ldFVx x => encodeXNN 0xF x 0x29
  | .ldBVx x => encodeXNN 0xF x 0x33
  | .ldMemVx x => encodeXNN 0xF x 0x55
  | .ldVxMem x => encodeXNN 0xF x 0x65

/-! ## The opcode table's rows -/

/-- The mask and match of each row of the opcode table, in the table's order (R85 to R91). The decoder above does not use
it: statements hold the decoder against it. -/
def opcodeRows : List (Word × Word) :=
  [(0xFFFF, 0x00E0), (0xFFFF, 0x00EE), (0xF000, 0x1000), (0xF000, 0x2000), (0xF000, 0x3000), (0xF000, 0x4000),
    (0xF00F, 0x5000), (0xF000, 0x6000), (0xF000, 0x7000)] ++
  [(0xF00F, 0x8000), (0xF00F, 0x8001), (0xF00F, 0x8002), (0xF00F, 0x8003), (0xF00F, 0x8004), (0xF00F, 0x8005),
    (0xF00F, 0x8006), (0xF00F, 0x8007), (0xF00F, 0x800E)] ++
  [(0xF00F, 0x9000), (0xF000, 0xA000), (0xF000, 0xB000), (0xF000, 0xC000), (0xF000, 0xD000), (0xF0FF, 0xE09E),
    (0xF0FF, 0xE0A1)] ++
  [(0xF0FF, 0xF007), (0xF0FF, 0xF00A), (0xF0FF, 0xF015), (0xF0FF, 0xF018), (0xF0FF, 0xF01E), (0xF0FF, 0xF029),
    (0xF0FF, 0xF033), (0xF0FF, 0xF055), (0xF0FF, 0xF065)]

end Sys2Proof
end

