-- ==== Sys2Proof/Machine/State.lean ====
section
/-! DEFINITION. The state of the CORE as plain data: every element of spec/10_state.md R20, the two per-step outputs of
R36, and one field of the model's own (`draws`); the outcome types; the state after reset (spec/70_reset_and_hazards.md
R290). -/

namespace Sys2Proof.Machine

/-! ## Outcomes -/

/-- The reasons a step can stop without a next state: there are none. Every fatal condition of the spec (R241) is a NEXT
state, with the fault record written (R243), and a halted step is a next state too (R95), so the type is empty
(log entry 3). -/
inductive Fault where
deriving DecidableEq, Repr

/-- The reasons the model gives no meaning. -/
inductive Refusal where
  /-- Raised by an arm of `exec` whose instruction has no meaning yet (safe). No arm is one: all 34 have theirs. -/
  | notModelled (mnemonic : String)
deriving DecidableEq, Repr

/-! ## Fatal conditions and notifications -/

/-- The six fatal conditions (R241). -/
inductive Cause where
  | stackOverflow
  | stackUnderflow
  | pcOutOfRange
  | addressOutOfRange
  | fontWrite
  | keyIndexOutOfRange
deriving DecidableEq, Repr

/-- What a `raise C(detail)` names (R243): the condition and the recorded detail. -/
structure Raise where
  cause  : Cause
  detail : Option Nat
deriving DecidableEq, Repr

/-- The fault record (R34). `opcode` is none for PcOutOfRange; `detail` is the offending address or register value, a
natural number because an address is never reduced (R57: up to 0x1000E). -/
structure FaultRecord where
  cause  : Cause
  pc     : Word
  opcode : Option Word
  detail : Option Nat
deriving DecidableEq, Repr

/-- The notification UnknownOpcode(rawOpcode, programCounter) (R246). -/
structure Diag where
  rawOpcode      : Word
  programCounter : Word
deriving DecidableEq, Repr

/-! ## Memory and framebuffer -/

/-- Memory (R35, R50 to R52). `font` is the parameter FONT, the contents of the immutable region 0x000 to 0x04F; `cells`
lists the bytes that differ from their reset value, by rising address. -/
structure Memory where
  font  : Vector Byte Config.fontBytes
  cells : List Host.Cell
deriving DecidableEq, Repr

/-- The 64 by 32 grid of one-bit pixels (R30): `fb[y][x]` is the pixel of column `x` and row `y`. -/
abbrev Framebuffer := Vector (Vector Bool 64) 32

/-! ## The state -/

/-- The machine state (R20). `toneEnd` and `diag` are the outputs of the last step (R36), held here because they last
until the next step (R273; log entry 4). `draws` counts the CXNN draws made so far: the MODEL's own field, not the spec's
(log entry 2). -/
structure State where
  mem     : Memory
  V       : Vector Byte 16
  I       : Word
  pc      : Word
  stack   : Vector Word 16
  sp      : Fin 17
  DT      : Byte
  ST      : Byte
  fb      : Framebuffer
  key     : Vector Bool 16
  waitKey : Option Reg
  dirty   : Bool
  fault   : Option FaultRecord
  toneEnd : Bool
  diag    : Option Diag
  draws   : Nat
deriving DecidableEq, Repr

/-- What executing an instruction, or one step, answers. -/
abbrev Result := Host.Outcome State Fault Refusal

/-- All pixels off. -/
def blankScreen : Framebuffer := Vector.replicate 32 (Vector.replicate 64 false)

/-- The state R290 gives after `initialize()`, for a given FONT. -/
def State.initial (font : Vector Byte Config.fontBytes) : State where
  mem     := { font := font, cells := [] }
  V       := Vector.replicate 16 0
  I       := 0
  pc      := 0x0200
  stack   := Vector.replicate 16 0
  sp      := 0
  DT      := 0
  ST      := 0
  fb      := blankScreen
  key     := Vector.replicate 16 false
  waitKey := none
  dirty   := false
  fault   := none
  toneEnd := false
  diag    := none
  draws   := 0

/-- The machine right after reset, with the default FONT (R53, R290). -/
def State.reset : State := State.initial defaultFont

end Sys2Proof.Machine
end

