-- ==== Sys2Proof/Machine/Ops.lean ====
section
/-! DEFINITION. The named operations every meaning is written over: memory (spec/20_memory.md R50 to R60), registers,
`pc` and stack (spec/10_state.md R21 to R27), and fault entry (spec/60_exceptions.md R243). -/

namespace Sys2Proof.Machine

/-! ## Memory as data -/

/-- The byte listed at an address, if there is one. -/
def lookupCell : List Host.Cell → Nat → Option Byte
  | [], _ => none
  | (b, w) :: rest, a => if b = a then some w else lookupCell rest a

/-- List a byte at an address, in its place by rising address. -/
def insertCell (a : Nat) (v : Byte) : List Host.Cell → List Host.Cell
  | [] => [(a, v)]
  | (b, w) :: rest =>
    if a < b then (a, v) :: (b, w) :: rest
    else if a = b then (a, v) :: rest
    else (b, w) :: insertCell a v rest

/-- Take the byte at an address off the list. -/
def eraseCell (a : Nat) : List Host.Cell → List Host.Cell
  | [] => []
  | (b, w) :: rest => if b = a then eraseCell a rest else (b, w) :: eraseCell a rest

/-- What an address with no listed byte reads as: its reset contents, FONT in 0x000 to 0x04F and 0x00 above
(R35, R52, R58). -/
def Memory.unlisted (m : Memory) (a : Nat) : Byte :=
  if h : a < Config.fontBytes then m.font[a] else 0

/-- The byte at an address. -/
def Memory.read (m : Memory) (a : Nat) : Byte :=
  (lookupCell m.cells a).getD (m.unlisted a)

/-- Replace the byte at an address, keeping the canonical form: a byte equal to what the address reads as unlisted is not
listed. -/
def Memory.write (m : Memory) (a : Nat) (v : Byte) : Memory :=
  { m with cells := if v = m.unlisted a then eraseCell a m.cells else insertCell a v m.cells }

/-- Write bytes at rising addresses. -/
def Memory.writeAll (m : Memory) (a : Nat) : List Byte → Memory
  | [] => m
  | b :: rest => Memory.writeAll (m.write a b) (a + 1) rest

/-- The listed addresses rise strictly from `lo`, lie outside the font region and inside memory, and no entry equals what
its address reads as unlisted. -/
def Memory.cellsOk (m : Memory) : Nat → List Host.Cell → Bool
  | _, [] => true
  | lo, (a, v) :: rest =>
    lo ≤ a && a < Config.memBytes && v != m.unlisted a && Memory.cellsOk m (a + 1) rest

/-- The canonical form of memory. -/
def Memory.wf (m : Memory) : Bool := m.cellsOk Config.fontBytes m.cells

/-! ## Checked accesses -/

/-- `MemRead(a, 1)` (R55): an address of 4096 or more raises AddressOutOfRange. -/
def memRead (m : Memory) (a : Nat) : Except Raise Byte :=
  if Config.memBytes ≤ a then .error { cause := .addressOutOfRange, detail := some a }
  else .ok (m.read a)

/-- `MemWrite(a, 1, v)` (R56): the range check comes before the font check. -/
def memWrite (m : Memory) (a : Nat) (v : Byte) : Except Raise Memory :=
  if Config.memBytes ≤ a then .error { cause := .addressOutOfRange, detail := some a }
  else if a < Config.fontBytes then .error { cause := .fontWrite, detail := some a }
  else .ok (m.write a v)

/-- Reads of `n` bytes from `a` in increasing order; the first that fails ends them (R247). -/
def memReadRange (m : Memory) (a : Nat) : Nat → Except Raise (List Byte)
  | 0 => .ok []
  | n + 1 =>
    match memRead m a with
    | .error e => .error e
    | .ok b =>
      match memReadRange m (a + 1) n with
      | .error e => .error e
      | .ok rest => .ok (b :: rest)

/-- Writes of bytes from `a` in increasing order; the first that fails ends them and nothing is written (R56, R247). -/
def memWriteRange (m : Memory) (a : Nat) : List Byte → Except Raise Memory
  | [] => .ok m
  | b :: rest =>
    match memWrite m a b with
    | .error e => .error e
    | .ok m' => memWriteRange m' (a + 1) rest

/-! ## Registers and pc -/

/-- `V[r]` (R7, R21). -/
def State.reg (s : State) (r : Reg) : Byte := s.V[r]

/-- `V[r] <- b`: all 8 bits are replaced (R21). -/
def State.setReg (s : State) (r : Reg) (b : Byte) : State := { s with V := s.V.set r b }

/-- `pc <- target`: no check is made when `pc` is written (R128). -/
def State.setPc (s : State) (target : Word) : State := { s with pc := target }

/-- `pc <- pc + 2` (R99). -/
def State.nextPc (s : State) : State := s.setPc (s.pc + 2)

/-- `pc <- pc + 4` if the condition holds, else `pc <- pc + 2` (R9, R124). -/
def State.skipIf (s : State) (c : Bool) : State := s.setPc (if c then s.pc + 4 else s.pc + 2)

/-- `V[k], V[k+1], ... <- bytes`, as far as the registers go (R185). -/
def loadRegsFrom (V : Vector Byte 16) (k : Nat) : List Byte → Vector Byte 16
  | [] => V
  | b :: rest => loadRegsFrom (V.setIfInBounds k b) (k + 1) rest

/-- `V[0], ..., V[x]` in order (R184). -/
def State.regsUpTo (s : State) (x : Reg) : List Byte := s.V.toList.take (x.val + 1)

/-! ## Stack (R26, R27) -/

/-- Push a return address: StackOverflow when `sp` is 16 (R122). -/
def State.push (s : State) (ret : Word) : Except Raise State :=
  if h : s.sp.val < 16 then
    .ok { s with stack := s.stack.set s.sp.val ret, sp := ⟨s.sp.val + 1, by omega⟩ }
  else .error { cause := .stackOverflow, detail := none }

/-- Pop a return address: StackUnderflow when `sp` is 0; the entry is not cleared (R26, R120). -/
def State.pop (s : State) : Except Raise (Word × State) :=
  if h : s.sp.val = 0 then .error { cause := .stackUnderflow, detail := none }
  else
    .ok (s.stack[s.sp.val - 1]'(by omega), { s with sp := ⟨s.sp.val - 1, by omega⟩ })

/-! ## Fault entry (R243) and per-step outputs (R273)

There is no return from a fault by an instruction (R245): only the host's `initialize` clears the record
(Machine/Ports.lean). -/

/-- The outputs at the start of every step (R273). -/
def State.clearOutputs (s : State) : State := { s with toneEnd := false, diag := none }

/-- `raise C(detail)` while executing the word `op` (R243), applied to the state before the instruction's writes: the
record is written, the outputs are cleared, all else stays. -/
def State.takeFault (s : State) (op : Option Word) (e : Raise) : State :=
  { s with
    fault := some { cause := e.cause, pc := s.pc, opcode := op, detail := e.detail }
    toneEnd := false
    diag := none }

/-- End an instruction that may raise: its writes take effect all together, or the fault entry alone does (R63, R243). -/
def State.commit (s : State) (i : Instr) (r : Except Raise State) : Result :=
  match r with
  | .ok s' => .next s'
  | .error e => .next (s.takeFault (some (encode i)) e)

end Sys2Proof.Machine
end

