-- ==== Sys2Proof/Machine/Timer.lean ====
section
/-! DEFINITION. The Timer Unit (spec/60_exceptions.md R260). -/

namespace Sys2Proof.Machine

/-- One countdown, saturating at zero (R260). -/
def countdown (t : Byte) : Byte := if t = 0 then 0 else t - 1

/-- `TimerUpdate()` (R260): both timers count down; a decrement of ST from exactly 1 emits `toneEnd`. -/
def State.timerUpdate (s : State) : State :=
  { s with
    DT := countdown s.DT
    ST := countdown s.ST
    toneEnd := if s.ST = 1 then true else s.toneEnd }

end Sys2Proof.Machine
end

