-- ==== Sys2Proof/Machine/Cycle.lean ====
section
/-! DEFINITION. The parts of the instruction cycle around executing an instruction (spec/30_encoding.md R94 to R102):
the fetch check, the fetch, the Unknown word, the key wait, the end of a step; and placing a word where the next step
fetches. -/

namespace Sys2Proof.Machine

/-- R97, R25: `pc` is even and 0x200 ≤ `pc` ≤ 0xFFE. -/
def pcOk (pc : Word) : Bool :=
  pc.toNat % 2 == 0 && 0x200 ≤ pc.toNat && pc.toNat ≤ 0xFFE

/-- R98, R59: the 16-bit big-endian word at `pc`. -/
def State.fetchWord (s : State) : Word :=
  wordOfBytes (s.mem.read s.pc.toNat) (s.mem.read (s.pc.toNat + 1))

/-- R97: a fetch with `pc` out of range raises PcOutOfRange; it has no opcode and nothing is fetched. -/
def State.badFetch (s : State) : State :=
  s.takeFault none { cause := .pcOutOfRange, detail := none }

/-- R100: an Unknown word is reported with its own address and is a no-op that advances `pc` by 2 (decision D19). -/
def State.reportUnknown (s : State) (op : Word) : State :=
  ({ s with diag := some { rawOpcode := op, programCounter := s.pc } } : State).nextPc

/-- The smallest pressed key, if any (R96, decisions D10 and D11). -/
def firstPressed (key : Vector Bool 16) : Option (Fin 16) :=
  (List.finRange 16).find? (fun k => key[k])

/-- R96: the key `k` resolves the wait for V[x]: the index is written, the wait ends, `pc` passes the FX0A. -/
def State.resolveWait (s : State) (x : Reg) (k : Fin 16) : State :=
  ({ s.setReg x (BitVec.ofNat 8 k.val) with waitKey := none } : State).nextPc

/-- R96: a step taken in the key wait stalls, or resolves it and runs the Timer Unit. -/
def State.keyWaitStep (s : State) (x : Reg) : State :=
  match firstPressed s.key with
  | none => s
  | some k => (s.resolveWait x k).timerUpdate

/-- R101, R102: the Timer Unit runs after an instruction that completed, and not after one that raised. The instruction
began with no fault record, so a record shows that it raised. -/
def endStep (r : Result) : Result :=
  match r with
  | .next s => .next (if s.fault.isSome then s else s.timerUpdate)
  | .fault e => .fault e
  | .refused e => .refused e

/-- The address a fetch can read: `pc` where it is in range, else the program base. -/
def fetchAddress (pc : Word) : Word := if pcOk pc then pc else BitVec.ofNat 16 Config.programBase

/-- `s` made to fetch the word `op` next: no fault, no key wait, `pc` in range and the word's bytes at it. -/
def State.placeWord (s : State) (op : Word) : State :=
  { s with
    fault := none
    waitKey := none
    pc := fetchAddress s.pc
    mem := s.mem.writeAll (fetchAddress s.pc).toNat [highByte op, lowByte op] }

end Sys2Proof.Machine
end

