-- ==== Sys2Proof/Machine/Operands.lean ====
section
/-! DEFINITION. The operand forms (spec/30_encoding.md R81 to R83): registers V[X] and V[Y] read once at the start
(spec/42_register_alu.md R150), the immediates NN, NNN and N, and addresses formed from `I`. -/

namespace Sys2Proof.Machine

/-- `zext_16(NNN)` (R82). -/
def zextAddr (nnn : Addr) : Word := nnn.setWidth 16

/-- `zext_16(b)` of a register value (R6). -/
def zextByte (b : Byte) : Word := b.setWidth 16

/-- The operand snapshot `a = V[X]`, `b = V[Y]` (R150). -/
def State.operands (s : State) (x y : Reg) : Byte × Byte := (s.reg x, s.reg y)

/-- The data address `I + k`, a natural number computed without wrap-around (R57). -/
def State.dataAddr (s : State) (k : Nat) : Nat := s.I.toNat + k

/-- A key index from a register value: none above 15 (R220, R221). -/
def keyOf (b : Byte) : Option (Fin 16) :=
  if h : b.toNat < 16 then some ⟨b.toNat, h⟩ else none

/-- The three decimal digits of a byte, hundreds first (R183). -/
def decimalDigits (b : Byte) : List Byte :=
  [BitVec.ofNat 8 (b.toNat / 100), BitVec.ofNat 8 (b.toNat / 10 % 10), BitVec.ofNat 8 (b.toNat % 10)]

end Sys2Proof.Machine
end

