-- ==== Sys2Proof/Machine/Flags.lean ====
section
/-! DEFINITION. The flag computations (spec/42_register_alu.md R151): the value each flag-setting instruction writes to VF,
and the order of the two writes (R150). -/

namespace Sys2Proof.Machine

/-- A flag as a register value: 1 or 0. -/
def flagByte (c : Bool) : Byte := if c then 1 else 0

/-- Carry of an addition: the exact sum exceeds 255 (R158). -/
def carryFlag (a b : Byte) : Byte := flagByte (decide (a.toNat + b.toNat > 255))

/-- NOT borrow of `a - b`: the minuend is at least the subtrahend (R159, R161). -/
def notBorrowFlag (a b : Byte) : Byte := flagByte (decide (a.toNat ≥ b.toNat))

/-- The bit a right shift by one moves out (R160). -/
def shiftedOutLow (b : Byte) : Byte := flagByte (b.getLsbD 0)

/-- The bit a left shift by one moves out (R162). -/
def shiftedOutHigh (b : Byte) : Byte := flagByte (b.getLsbD 7)

/-- First VF, then V[X] (R150, decision D13): with X = F the result overwrites the flag. -/
def State.writeFlagged (s : State) (x : Reg) (flag result : Byte) : State :=
  (s.setReg VF flag).setReg x result

end Sys2Proof.Machine
end

