-- ==== Sys2Proof/Machine/Alu.lean ====
section
/-! DEFINITION. The register ALU (spec/42_register_alu.md R150 to R163). Operands are read once, at the start; then VF,
V[X] and `pc` are written in that order (R150). -/

namespace Sys2Proof.Machine

/-- Write V[X] alone and advance (the forms that set no flag). -/
def State.aluResult (s : State) (x : Reg) (result : Byte) : Result :=
  .next (s.setReg x result).nextPc

/-- Write VF, then V[X], and advance (the flag-setting forms, R150). -/
def State.aluFlagged (s : State) (x : Reg) (flag result : Byte) : Result :=
  .next (s.writeFlagged x flag result).nextPc

/-- R152, 6XNN. -/
def execLdVxByte (x : Reg) (nn : Byte) (s : State) : Result :=
  s.aluResult x nn

/-- R153, 7XNN: modulo 256, no flag. -/
def execAddVxByte (x : Reg) (nn : Byte) (s : State) : Result :=
  s.aluResult x (s.reg x + nn)

/-- R154, 8XY0. -/
def execLdVxVy (x y : Reg) (s : State) : Result :=
  let (_, b) := s.operands x y
  s.aluResult x b

/-- R155, 8XY1. -/
def execOrVxVy (x y : Reg) (s : State) : Result :=
  let (a, b) := s.operands x y
  s.aluResult x (a ||| b)

/-- R156, 8XY2. -/
def execAndVxVy (x y : Reg) (s : State) : Result :=
  let (a, b) := s.operands x y
  s.aluResult x (a &&& b)

/-- R157, 8XY3. -/
def execXorVxVy (x y : Reg) (s : State) : Result :=
  let (a, b) := s.operands x y
  s.aluResult x (a ^^^ b)

/-- R158, 8XY4: VF = carry. -/
def execAddVxVy (x y : Reg) (s : State) : Result :=
  let (a, b) := s.operands x y
  s.aluFlagged x (carryFlag a b) (a + b)

/-- R159, 8XY5: V[X] - V[Y], VF = NOT borrow. -/
def execSubVxVy (x y : Reg) (s : State) : Result :=
  let (a, b) := s.operands x y
  s.aluFlagged x (notBorrowFlag a b) (a - b)

/-- R160, 8XY6: V[Y] shifted right by one, VF = the bit shifted out. -/
def execShrVxVy (x y : Reg) (s : State) : Result :=
  let (_, b) := s.operands x y
  s.aluFlagged x (shiftedOutLow b) (b >>> 1)

/-- R161, 8XY7: V[Y] - V[X], VF = NOT borrow. -/
def execSubnVxVy (x y : Reg) (s : State) : Result :=
  let (a, b) := s.operands x y
  s.aluFlagged x (notBorrowFlag b a) (b - a)

/-- R162, 8XYE: V[Y] shifted left by one, VF = the bit shifted out. -/
def execShlVxVy (x y : Reg) (s : State) : Result :=
  let (_, b) := s.operands x y
  s.aluFlagged x (shiftedOutHigh b) (b <<< 1)

/-- A fresh draw of `RandomByte` (R163, decision D14): the free value of log entry 2, and the state with the draw
counted. -/
def State.drawByte (s : State) : Byte × State :=
  (Config.randomByte s.draws, { s with draws := s.draws + 1 })

/-- R163, CXNN. -/
def execRndVxByte (x : Reg) (nn : Byte) (s : State) : Result :=
  let (r, s') := s.drawByte
  s'.aluResult x (r &&& nn)

end Sys2Proof.Machine
end

