-- ==== Sys2Proof/Machine/Control.lean ====
section
/-! DEFINITION. Control transfer, skips and the stack controller (spec/41_control_stack.md R120 to R130). -/

namespace Sys2Proof.Machine

/-- R120, 00EE: pop `pc`; StackUnderflow on an empty stack. -/
def execRet (s : State) : Result :=
  s.commit .ret <|
    match s.pop with
    | .error e => .error e
    | .ok (ret, s') => .ok (s'.setPc ret)

/-- R121, 1NNN: absolute jump. -/
def execJpAddr (nnn : Addr) (s : State) : Result :=
  .next (s.setPc (zextAddr nnn))

/-- R122, 2NNN: push `pc + 2` and jump; StackOverflow on a full stack. -/
def execCallAddr (nnn : Addr) (s : State) : Result :=
  s.commit (.callAddr nnn) <|
    match s.push (s.pc + 2) with
    | .error e => .error e
    | .ok s' => .ok (s'.setPc (zextAddr nnn))

/-- R123, BNNN: jump to NNN + V0, never reduced modulo 2^12. -/
def execJpV0Addr (nnn : Addr) (s : State) : Result :=
  .next (s.setPc (zextAddr nnn + zextByte (s.reg 0)))

/-- R124, 3XNN. -/
def execSeVxByte (x : Reg) (nn : Byte) (s : State) : Result :=
  .next (s.skipIf (s.reg x == nn))

/-- R125, 4XNN. -/
def execSneVxByte (x : Reg) (nn : Byte) (s : State) : Result :=
  .next (s.skipIf (s.reg x != nn))

/-- R126, 5XY0. -/
def execSeVxVy (x y : Reg) (s : State) : Result :=
  .next (s.skipIf (s.reg x == s.reg y))

/-- R127, 9XY0. -/
def execSneVxVy (x y : Reg) (s : State) : Result :=
  .next (s.skipIf (s.reg x != s.reg y))

end Sys2Proof.Machine
end

