-- ==== Sys2Proof/Machine/Display.lean ====
section
/-! DEFINITION. The frame-buffer XOR-sprite engine (spec/44_display.md R200 to R203). -/

namespace Sys2Proof.Machine

/-- A column, reduced modulo 64 (R200). -/
def wrapX (n : Nat) : Fin 64 := ⟨n % 64, Nat.mod_lt _ (by decide)⟩

/-- A row, reduced modulo 32 (R200). -/
def wrapY (n : Nat) : Fin 32 := ⟨n % 32, Nat.mod_lt _ (by decide)⟩

/-- The pixel of column `x` and row `y` (R30). -/
def pixel (fb : Framebuffer) (x : Fin 64) (y : Fin 32) : Bool := fb[y][x]

/-- Flip one pixel. -/
def togglePixel (fb : Framebuffer) (x : Fin 64) (y : Fin 32) : Framebuffer :=
  fb.set y (fb[y].set x (!pixel fb x y))

/-- A framebuffer being drawn on and the collision flag so far (R203: `fb` and `c`). -/
abbrev Canvas := Framebuffer × Bool

/-- One sprite bit on one pixel: a 1 bit flips the pixel, and a pixel that was on sets the collision flag (R203). -/
def drawPixel (c : Canvas) (x : Fin 64) (y : Fin 32) (bit : Bool) : Canvas :=
  if bit then (togglePixel c.1 x y, c.2 || pixel c.1 x y) else c

/-- The sprite bit of column offset `col`: bit 7 is the leftmost (R201, decision D16; log entry 5). -/
def spriteBit (row : Byte) (col : Nat) : Bool := row.getLsbD (7 - col)

/-- One sprite row of 8 pixels, from column `x0` in row `y` (R203). -/
def drawRow (c : Canvas) (x0 : Nat) (y : Nat) (row : Byte) : Canvas :=
  (List.range 8).foldl (fun c col => drawPixel c (wrapX (x0 + col)) (wrapY y) (spriteBit row col)) c

/-- The sprite rows in order, the first in row `y` (R203). -/
def drawRows (c : Canvas) (x0 : Nat) (y : Nat) : List Byte → Canvas
  | [] => c
  | row :: rest => drawRows (drawRow c x0 y row) x0 (y + 1) rest

/-- R202, 00E0. -/
def execCls (s : State) : Result :=
  .next ({ s with fb := blankScreen, dirty := true } : State).nextPc

/-- R203, DXYN: the sprite rows are read first (they may raise), then drawn; VF is the collision flag. -/
def execDrwVxVyNibble (x y : Reg) (n : Count) (s : State) : Result :=
  let (x0, y0) := s.operands x y
  s.commit (.drwVxVyNibble x y n) <|
    match memReadRange s.mem (s.dataAddr 0) n.val with
    | .error e => .error e
    | .ok rows =>
      let c := drawRows (s.fb, false) x0.toNat y0.toNat rows
      .ok (({ s with fb := c.1, dirty := true } : State).setReg VF (flagByte c.2)).nextPc

end Sys2Proof.Machine
end

