-- ==== Sys2Proof/Machine/IndexMemory.lean ====
section
/-! DEFINITION. The index register and the memory instructions (spec/43_index_memory.md R180 to R185). -/

namespace Sys2Proof.Machine

/-- `I <- w; pc <- pc + 2`. -/
def State.setIndex (s : State) (w : Word) : State := ({ s with I := w } : State).nextPc

/-- R180, ANNN. -/
def execLdIAddr (nnn : Addr) (s : State) : Result :=
  .next (s.setIndex (zextAddr nnn))

/-- R181, FX1E: modulo 65536, no flag. -/
def execAddIVx (x : Reg) (s : State) : Result :=
  .next (s.setIndex (s.I + zextByte (s.reg x)))

/-- R182, FX29: V[X] times 5, the high nibble not masked (decision D23). -/
def execLdFVx (x : Reg) (s : State) : Result :=
  .next (s.setIndex (zextByte (s.reg x) * 5))

/-- Store bytes at I, I+1, ... and advance; all or none are written (R56). -/
def State.storeAtIndex (s : State) (bytes : List Byte) : Except Raise State :=
  match memWriteRange s.mem (s.dataAddr 0) bytes with
  | .error e => .error e
  | .ok m => .ok ({ s with mem := m } : State).nextPc

/-- R183, FX33. -/
def execLdBVx (x : Reg) (s : State) : Result :=
  s.commit (.ldBVx x) (s.storeAtIndex (decimalDigits (s.reg x)))

/-- R184, FX55: V[0..X] to memory[I..I+X]; I is unchanged. -/
def execLdMemVx (x : Reg) (s : State) : Result :=
  s.commit (.ldMemVx x) (s.storeAtIndex (s.regsUpTo x))

/-- R185, FX65: memory[I..I+X] to V[0..X]; I is unchanged. -/
def execLdVxMem (x : Reg) (s : State) : Result :=
  s.commit (.ldVxMem x) <|
    match memReadRange s.mem (s.dataAddr 0) (x.val + 1) with
    | .error e => .error e
    | .ok bytes => .ok ({ s with V := loadRegsFrom s.V 0 bytes } : State).nextPc

end Sys2Proof.Machine
end

