-- ==== Sys2Proof/Machine/KeyTimer.lean ====
section
/-! DEFINITION. Keypad and timer instructions (spec/45_keypad_timer_instr.md R220 to R225). -/

namespace Sys2Proof.Machine

/-- The key test of R220 and R221: KeyIndexOutOfRange when the register is above 15, else skip if the key's state is the
one wanted. -/
def State.keySkip (s : State) (k : Byte) (wanted : Bool) : Except Raise State :=
  match keyOf k with
  | none => .error { cause := .keyIndexOutOfRange, detail := some k.toNat }
  | some key => .ok (s.skipIf (s.key[key] == wanted))

/-- R220, EX9E: skip if the key is pressed. -/
def execSkpVx (x : Reg) (s : State) : Result :=
  s.commit (.skpVx x) (s.keySkip (s.reg x) true)

/-- R221, EXA1: skip if the key is not pressed. -/
def execSknpVx (x : Reg) (s : State) : Result :=
  s.commit (.sknpVx x) (s.keySkip (s.reg x) false)

/-- R222, FX07: DT as it is before this step's decrement. -/
def execLdVxDT (x : Reg) (s : State) : Result :=
  .next (s.setReg x s.DT).nextPc

/-- R223, FX0A: set the key wait; `pc` is NOT advanced (decision D12). -/
def execLdVxK (x : Reg) (s : State) : Result :=
  .next { s with waitKey := some x }

/-- R224, FX15. -/
def execLdDTVx (x : Reg) (s : State) : Result :=
  .next ({ s with DT := s.reg x } : State).nextPc

/-- R225, FX18. -/
def execLdSTVx (x : Reg) (s : State) : Result :=
  .next ({ s with ST := s.reg x } : State).nextPc

end Sys2Proof.Machine
end

