-- ==== Sys2Proof/Machine/Step.lean ====
section
/-! DEFINITION. One `step()` of the CORE (spec/30_encoding.md R94). -/

namespace Sys2Proof.Machine

/-- R94, in its order: outputs cleared; halted; key wait; the `pc` check; fetch; decode; execute; Timer Unit. -/
def step (s : State) : Host.Outcome State Fault Refusal :=
  let s := s.clearOutputs
  match s.fault with
  | some _ => .next s
  | none =>
    match s.waitKey with
    | some x => .next (s.keyWaitStep x)
    | none =>
      if pcOk s.pc then
        match decodeWord s.fetchWord with
        | none => endStep (.next (s.reportUnknown s.fetchWord))
        | some i => endStep (exec i s)
      else .next s.badFetch

/-- `s` with the table's word `w` of `nbits` bits placed where `step` fetches its next instruction. -/
def State.withFetchWord (s : State) (nbits w : Nat) : State :=
  s.placeWord (BitVec.ofNat 16 (w % 2 ^ nbits))

end Sys2Proof.Machine
end

