-- ==== Sys2Proof/Machine/Ports.lean ====
section
/-! DEFINITION. The host ports (spec/60_exceptions.md R270 to R277; spec/20_memory.md R69; spec/70_reset_and_hazards.md
R290) and the condition codes (R241, R242). Every port takes effect between two steps (R70). -/

namespace Sys2Proof.Machine

/-! ## Input ports -/

/-- `initialize()` (R290): every element at its reset value; FONT, a parameter, stays. `draws` stays too: it is no state of
the spec, and a draw after `initialize` is as fresh as any other (log entry 2). -/
def hostInitialize (s : State) : State :=
  { State.initial s.mem.font with draws := s.draws }

/-- What `loadProgram` returns to its caller (R69). -/
inductive LoadResult where
  | success
  | programTooLarge
deriving DecidableEq, Repr

/-- `loadProgram(bytes)` (R69): the bytes to memory from 0x200, or ProgramTooLarge and no change. -/
def loadProgram (bytes : List Byte) (s : State) : LoadResult × State :=
  if programFits bytes then (.success, { s with mem := s.mem.writeAll Config.programBase bytes })
  else (.programTooLarge, s)

/-- `setKeyState(index, pressed)` (R270): refused, with no effect, outside 0 to 15 (decision D20). -/
def setKeyState (index : Nat) (pressed : Bool) (s : State) : State :=
  if keyIndexOk index then { s with key := s.key.setIfInBounds index pressed } else s

/-- `frameConsumed()` (R271): clears `dirty` and nothing else. -/
def frameConsumed (s : State) : State := { s with dirty := false }

/-- A call of one of the host's input ports (R277), `step()` apart. -/
inductive PortCall where
  | hostInitialize
  | loadProgram (bytes : List Byte)
  | setKeyState (index : Nat) (pressed : Bool)
  | frameConsumed
deriving DecidableEq, Repr

/-- The state after a port call. -/
def applyPort : PortCall → State → State
  | .hostInitialize, s => Sys2Proof.Machine.hostInitialize s
  | .loadProgram bytes, s => (Sys2Proof.Machine.loadProgram bytes s).2
  | .setKeyState index pressed, s => Sys2Proof.Machine.setKeyState index pressed s
  | .frameConsumed, s => Sys2Proof.Machine.frameConsumed s

/-! ## Output ports -/

/-- The cell number of column `x`, row `y` (R30, decision D17). -/
def cellNumber (x : Fin 64) (y : Fin 32) : Nat := y.val * 64 + x.val

/-- The display output (R271): the grid and the dirty indicator as they stand between steps. -/
def displayOutput (s : State) : Framebuffer × Bool := (s.fb, s.dirty)

/-- The 2048 cells of the grid, by cell number (R30). -/
def displayCells (s : State) : List Bool := (s.fb.toList.map Vector.toList).flatten

/-- The level output `toneActive = (ST != 0)` (R272). -/
def toneActive (s : State) : Bool := s.ST != 0

/-- The one-shot output `toneEnd` of the last step (R272, R273). -/
def toneEndOutput (s : State) : Bool := s.toneEnd

/-- The diagnostics output of the last step (R275). -/
def diagOutput (s : State) : Option Diag := s.diag

/-- The fault output (R276). -/
def faultOutput (s : State) : Option FaultRecord := s.fault

/-- The fault output's valid bit, the "halted" indication (R276). -/
def halted (s : State) : Bool := s.fault.isSome

/-- The inspection port (R274): the whole state, read without side effect. -/
def inspect (s : State) : State := s

/-! ## Condition codes (labels of the spec's own, decision D2) -/

/-- R241. -/
def causeCode : Cause → Nat
  | .stackOverflow => 1
  | .stackUnderflow => 2
  | .pcOutOfRange => 3
  | .addressOutOfRange => 4
  | .fontWrite => 5
  | .keyIndexOutOfRange => 6

/-- R242. -/
def unknownOpcodeCode : Nat := 0x10

/-- R242. -/
def programTooLargeCode : Nat := 0x20

end Sys2Proof.Machine
end

