-- ==== Sys2Proof/Machine/Session.lean ====
section
/-! DEFINITION. A session: the host's calls in the order the host makes them, steps and port calls alike, each atomic
(spec/20_memory.md R63, R70; spec/60_exceptions.md R277; spec/70_reset_and_hazards.md R292). -/

namespace Sys2Proof.Machine

/-- One call by the host. -/
inductive HostEvent where
  | step
  | port (call : PortCall)
deriving DecidableEq, Repr

/-- The effect of one host call. -/
def applyEvent (e : HostEvent) (s : State) : Result :=
  match e with
  | .step => Sys2Proof.Machine.step s
  | .port call => .next (applyPort call s)

/-- The effect of the host's calls, in order. -/
def runSession : List HostEvent → State → Result
  | [], s => .next s
  | e :: rest, s =>
    match applyEvent e s with
    | .next s' => runSession rest s'
    | .fault r => .fault r
    | .refused r => .refused r

end Sys2Proof.Machine
end

