-- ==== Sys2Proof/Safety.lean ====
section
/-! DEFINITION. The words the statements use: what an instruction leaves unchanged (`Keeps`), what a fault record may hold
(`recordOk`), and the machine's invariant (`Inv`). Written from spec/10_state.md and spec/60_exceptions.md, not from the
meanings. -/

namespace Sys2Proof.Machine

/-! ## Frames -/

/-- The state elements, registers, memory and `pc` apart, that an instruction can write (R20). -/
inductive Part where
  | I | stack | sp | DT | ST | fb | waitKey | dirty | draws
deriving DecidableEq, Repr

/-- From `s` to `t` every register outside `regs`, every byte of memory outside `addrs` and every element outside `parts`
is unchanged, and so are the keypad, the fault record, the per-step outputs and FONT. `pc` may change. -/
def Keeps (parts : List Part) (regs : List Reg) (addrs : List Nat) (s t : State) : Prop :=
  (∀ r, r ∉ regs → t.reg r = s.reg r) ∧
  (∀ a, a ∉ addrs → t.mem.read a = s.mem.read a) ∧
  (Part.I ∉ parts → t.I = s.I) ∧
  (Part.stack ∉ parts → t.stack = s.stack) ∧
  (Part.sp ∉ parts → t.sp = s.sp) ∧
  (Part.DT ∉ parts → t.DT = s.DT) ∧
  (Part.ST ∉ parts → t.ST = s.ST) ∧
  (Part.fb ∉ parts → t.fb = s.fb) ∧
  (Part.waitKey ∉ parts → t.waitKey = s.waitKey) ∧
  (Part.dirty ∉ parts → t.dirty = s.dirty) ∧
  (Part.draws ∉ parts → t.draws = s.draws) ∧
  t.key = s.key ∧ t.fault = s.fault ∧ t.toneEnd = s.toneEnd ∧ t.diag = s.diag ∧ t.mem.font = s.mem.font

/-- The fault entry of R243 and nothing else: `t` is `s` with the record written and the outputs cleared. -/
def RaisedAs (s t : State) (cause : Cause) (opcode : Option Word) (detail : Option Nat) : Prop :=
  t = { s with
    fault := some { cause := cause, pc := s.pc, opcode := opcode, detail := detail }
    toneEnd := false
    diag := none }

/-- The CORE will fetch at its next step: not halted (R95), not in a key wait (R96), `pc` even and in 0x200 to 0xFFE
(R97). -/
def Fetches (s : State) : Prop :=
  s.fault = none ∧ s.waitKey = none ∧ s.pc.toNat % 2 = 0 ∧ 0x200 ≤ s.pc.toNat ∧ s.pc.toNat ≤ 0xFFE

/-- The CORE will fetch at its next step, and the big-endian word at `pc` is `op` (R98). -/
def FetchesWord (s : State) (op : Word) : Prop :=
  Fetches s ∧ op = s.mem.read s.pc.toNat ++ s.mem.read (s.pc.toNat + 1)

/-- A `pc` that is out of range shows as PcOutOfRange at the next step, with `pc` holding it (R97, R128). -/
def BadPcFaultsNext (t : State) : Prop :=
  t.fault = none → t.waitKey = none →
  (t.pc.toNat % 2 = 1 ∨ t.pc.toNat < 0x200 ∨ 0xFFE < t.pc.toNat) →
  ∃ u, step t = .next u ∧ RaisedAs t u .pcOutOfRange none none

/-- One Timer Unit update of a timer, on natural numbers: down by one and never below zero (R260). -/
def ticked (t : Byte) : Byte := BitVec.ofNat 8 (t.toNat - 1)

/-- DT and ST as the Timer Unit of a completing step finds them: after the effects of the instruction the step runs, of
which only FX15 writes DT and only FX18 writes ST (R28, R29, R101); a resolution of the key wait runs none (R96). -/
def timersToTick (s : State) : Byte × Byte :=
  match s.waitKey, decodeWord (s.mem.read s.pc.toNat ++ s.mem.read (s.pc.toNat + 1)) with
  | none, some (.ldDTVx x) => (s.reg x, s.ST)
  | none, some (.ldSTVx x) => (s.DT, s.reg x)
  | _, _ => (s.DT, s.ST)

/-- The pixel of column `x`, row `y` is one a sprite of the rows at `base` covers with a 1 bit (R200, R201, R203): row
offset `r`, column offset `col`, bit `7 - col`. -/
def SpriteCovers (m : Memory) (base x0 y0 n : Nat) (x : Fin 64) (y : Fin 32) : Prop :=
  ∃ r col, r < n ∧ col < 8 ∧ (m.read (base + r)).getLsbD (7 - col) = true ∧
    x.val = (x0 + col) % 64 ∧ y.val = (y0 + r) % 32

/-- The instructions that write VF: as a side effect (R22's list), or because they name VF as their destination. -/
def writesVF : Instr → Bool
  | .addVxVy _ _ | .subVxVy _ _ | .subnVxVy _ _ | .shrVxVy _ _ | .shlVxVy _ _ | .drwVxVyNibble _ _ _ => true
  | .ldVxByte x _ | .addVxByte x _ | .rndVxByte x _ | .ldVxDT x | .ldVxMem x => x == VF
  | .ldVxVy x _ | .orVxVy x _ | .andVxVy x _ | .xorVxVy x _ => x == VF
  | _ => false

/-- Every element at its reset value (R290), the font region holding `font`. -/
def ResetValues (font : Vector Byte 80) (t : State) : Prop :=
  (∀ a : Fin 80, t.mem.read a = font[a]) ∧ (∀ a, 0x50 ≤ a → t.mem.read a = 0) ∧
  (∀ r, t.reg r = 0) ∧ t.I = 0 ∧ t.pc = 0x0200 ∧ (∀ j : Fin 16, t.stack[j] = 0) ∧ t.sp = 0 ∧ t.DT = 0 ∧ t.ST = 0 ∧
  (∀ (x : Fin 64) (y : Fin 32), t.fb[y][x] = false) ∧ (∀ k : Fin 16, t.key[k] = false) ∧
  t.waitKey = none ∧ t.dirty = false ∧ t.fault = none ∧ t.toneEnd = false ∧ t.diag = none

/-! ## Invariant -/

/-- The instructions that can raise a condition (R241, column "raised by"; PcOutOfRange is raised by a fetch). -/
def raisedBy : Cause → Instr → Bool
  | .stackOverflow, .callAddr _ => true
  | .stackUnderflow, .ret => true
  | .addressOutOfRange, .drwVxVyNibble _ _ _ => true
  | .addressOutOfRange, .ldBVx _ => true
  | .addressOutOfRange, .ldMemVx _ => true
  | .addressOutOfRange, .ldVxMem _ => true
  | .fontWrite, .ldBVx _ => true
  | .fontWrite, .ldMemVx _ => true
  | .keyIndexOutOfRange, .skpVx _ => true
  | .keyIndexOutOfRange, .sknpVx _ => true
  | _, _ => false

/-- The detail that a condition raised by `i` in `s` records (R34, R241): the first address I, I+1, ... of 4096 or more;
the address I itself, where the first byte falls in the font region; the register's value; none. -/
def detailOf (s : State) : Instr → Cause → Option Nat
  | _, .addressOutOfRange => some (max s.I.toNat 4096)
  | _, .fontWrite => some s.I.toNat
  | .skpVx x, .keyIndexOutOfRange => some (s.reg x).toNat
  | .sknpVx x, .keyIndexOutOfRange => some (s.reg x).toNat
  | _, _ => none

/-- The details a condition can record, whatever the state (R34, R241). -/
def detailOk : Cause → Option Nat → Bool
  | .addressOutOfRange, some a => 4096 ≤ a && a ≤ 0x1000E
  | .fontWrite, some a => a < 0x50
  | .keyIndexOutOfRange, some k => 15 < k && k ≤ 255
  | .stackOverflow, none => true
  | .stackUnderflow, none => true
  | .pcOutOfRange, none => true
  | _, _ => false

/-- A fault record as the conditions of R241 leave it: PcOutOfRange has no opcode and a `pc` out of range; every other
condition has the word of an instruction that raises it, fetched at a `pc` in range. -/
def recordOk (r : FaultRecord) : Bool :=
  detailOk r.cause r.detail &&
  match r.opcode with
  | none => r.cause == .pcOutOfRange && !pcOk r.pc
  | some op =>
    pcOk r.pc &&
    match decodeWord op with
    | none => false
    | some i => raisedBy r.cause i

/-- A pushed return address: even, 0x202 to 0x1000 (R122: `pc + 2` of a fetched call). -/
def returnAddressOk (w : Word) : Bool := w.toNat % 2 == 0 && 0x202 ≤ w.toNat && w.toNat ≤ 0x1000

/-- What every step and every port keeps:
memory is in canonical form (and lists nothing in the font region);
`pc` is at most 0x10FE (R24);
a stack entry in use is a return address, and one not in use is 0x0000 or an old return address (R26);
in a key wait `pc` is that of a fetched word and the CORE is not halted (R96);
a tone end leaves ST at 0 in a running CORE (R260);
a fault record carries the current `pc` and fits its condition (R34, R243);
a notification is of an Unknown word just before `pc` in a running CORE (R100). -/
def Inv (s : State) : Prop :=
  s.mem.wf = true ∧
  s.pc.toNat ≤ 0x10FE ∧
  (∀ j : Fin 16, s.stack[j] = 0 ∨ returnAddressOk s.stack[j] = true) ∧
  (∀ j : Fin 16, j.val < s.sp.val → returnAddressOk s.stack[j] = true) ∧
  (s.waitKey ≠ none → pcOk s.pc = true ∧ s.fault = none) ∧
  (s.toneEnd = true → s.ST = 0 ∧ s.fault = none) ∧
  (∀ r, s.fault = some r → r.pc = s.pc ∧ recordOk r = true) ∧
  (∀ d, s.diag = some d →
    decodeWord d.rawOpcode = none ∧ pcOk d.programCounter = true ∧ s.pc = d.programCounter + 2 ∧ s.fault = none)

end Sys2Proof.Machine
end

