-- ==== Sys2Proof/Certificates/Slice0/Obligations.lean ====
section
/-! DEFINITION. The statements for the provers. Each formalises rules of spec/; a statement that rests on a decision of the
spec (spec/92_eei_decisions.md, D<n>) or on an entry of the assumption log says so. Nothing is proved here. -/

section
open Sys2Proof Sys2Proof.Machine

/-! ## Encoding and decoding (spec/30_encoding.md R80 to R92) -/

/-- Decoding an instruction's word gives the instruction back, with every operand, as a word and as the two bytes memory
holds before any other bytes. -/
def Obligations.DecodeOfEncodeIsTheInstruction : Prop :=
  ∀ (i : Instr) (rest : List Byte),
    decodeWord (encode i) = some i ∧
    decodeBytes (highByte (encode i) :: lowByte (encode i) :: rest) = .instr i rest

/-- A word that decodes to an instruction is that instruction's encoding: each instruction has one word. So the opcode in a
fault record (R34), which the model writes as `encode i`, is the fetched word. -/
def Obligations.DecodedWordIsTheEncoding : Prop :=
  ∀ (op : Word) (i : Instr), decodeWord op = some i → encode i = op

/-- R85 and R86: family 0x0 holds exactly two instructions; ten families hold one instruction each, and every word of the
family decodes to it, with X = op[11:8], Y = op[7:4], N = op[3:0], NN = op[7:0], NNN = op[11:0]. -/
def Obligations.DecodeOfWholeFamilies : Prop :=
  ∀ op : Word,
    let x : Reg := Fin.ofNat 16 (op.toNat / 256)
    let y : Reg := Fin.ofNat 16 (op.toNat / 16)
    let n : Count := Fin.ofNat 16 op.toNat
    let nn : Byte := BitVec.ofNat 8 op.toNat
    let nnn : Addr := BitVec.ofNat 12 op.toNat
    (op &&& 0xFFFF = 0x00E0 → decodeWord op = some .cls) ∧
    (op &&& 0xFFFF = 0x00EE → decodeWord op = some .ret) ∧
    (op &&& 0xF000 = 0x0000 → op ≠ 0x00E0 → op ≠ 0x00EE → decodeWord op = none) ∧
    (op &&& 0xF000 = 0x1000 → decodeWord op = some (.jpAddr nnn)) ∧
    (op &&& 0xF000 = 0x2000 → decodeWord op = some (.callAddr nnn)) ∧
    (op &&& 0xF000 = 0x3000 → decodeWord op = some (.seVxByte x nn)) ∧
    (op &&& 0xF000 = 0x4000 → decodeWord op = some (.sneVxByte x nn)) ∧
    (op &&& 0xF000 = 0x6000 → decodeWord op = some (.ldVxByte x nn)) ∧
    (op &&& 0xF000 = 0x7000 → decodeWord op = some (.addVxByte x nn)) ∧
    (op &&& 0xF000 = 0xA000 → decodeWord op = some (.ldIAddr nnn)) ∧
    (op &&& 0xF000 = 0xB000 → decodeWord op = some (.jpV0Addr nnn)) ∧
    (op &&& 0xF000 = 0xC000 → decodeWord op = some (.rndVxByte x nn)) ∧
    (op &&& 0xF000 = 0xD000 → decodeWord op = some (.drwVxVyNibble x y n))

/-- R87 and R88: families 0x5, 0x9 and 0x8, decoded by op[3:0]; every other low nibble is Unknown. -/
def Obligations.DecodeOfFamiliesFiveEightNine : Prop :=
  ∀ op : Word,
    let x : Reg := Fin.ofNat 16 (op.toNat / 256)
    let y : Reg := Fin.ofNat 16 (op.toNat / 16)
    (op &&& 0xF00F = 0x5000 → decodeWord op = some (.seVxVy x y)) ∧
    (op &&& 0xF000 = 0x5000 → op &&& 0x000F ≠ 0x0000 → decodeWord op = none) ∧
    (op &&& 0xF00F = 0x9000 → decodeWord op = some (.sneVxVy x y)) ∧
    (op &&& 0xF000 = 0x9000 → op &&& 0x000F ≠ 0x0000 → decodeWord op = none) ∧
    (op &&& 0xF00F = 0x8000 → decodeWord op = some (.ldVxVy x y)) ∧
    (op &&& 0xF00F = 0x8001 → decodeWord op = some (.orVxVy x y)) ∧
    (op &&& 0xF00F = 0x8002 → decodeWord op = some (.andVxVy x y)) ∧
    (op &&& 0xF00F = 0x8003 → decodeWord op = some (.xorVxVy x y)) ∧
    (op &&& 0xF00F = 0x8004 → decodeWord op = some (.addVxVy x y)) ∧
    (op &&& 0xF00F = 0x8005 → decodeWord op = some (.subVxVy x y)) ∧
    (op &&& 0xF00F = 0x8006 → decodeWord op = some (.shrVxVy x y)) ∧
    (op &&& 0xF00F = 0x8007 → decodeWord op = some (.subnVxVy x y)) ∧
    (op &&& 0xF00F = 0x800E → decodeWord op = some (.shlVxVy x y)) ∧
    (op &&& 0xF000 = 0x8000 → 0x0008 ≤ op &&& 0x000F → op &&& 0x000F ≠ 0x000E → decodeWord op = none)

/-- R89 and R90: families 0xE and 0xF, decoded by op[7:0]; any other low byte is Unknown. -/
def Obligations.DecodeOfFamiliesEAndF : Prop :=
  ∀ op : Word,
    let x : Reg := Fin.ofNat 16 (op.toNat / 256)
    (op &&& 0xF0FF = 0xE09E → decodeWord op = some (.skpVx x)) ∧
    (op &&& 0xF0FF = 0xE0A1 → decodeWord op = some (.sknpVx x)) ∧
    (op &&& 0xF000 = 0xE000 → op &&& 0x00FF ∉ [(0x9E : Word), 0xA1] → decodeWord op = none) ∧
    (op &&& 0xF0FF = 0xF007 → decodeWord op = some (.ldVxDT x)) ∧
    (op &&& 0xF0FF = 0xF00A → decodeWord op = some (.ldVxK x)) ∧
    (op &&& 0xF0FF = 0xF015 → decodeWord op = some (.ldDTVx x)) ∧
    (op &&& 0xF0FF = 0xF018 → decodeWord op = some (.ldSTVx x)) ∧
    (op &&& 0xF0FF = 0xF01E → decodeWord op = some (.addIVx x)) ∧
    (op &&& 0xF0FF = 0xF029 → decodeWord op = some (.ldFVx x)) ∧
    (op &&& 0xF0FF = 0xF033 → decodeWord op = some (.ldBVx x)) ∧
    (op &&& 0xF0FF = 0xF055 → decodeWord op = some (.ldMemVx x)) ∧
    (op &&& 0xF0FF = 0xF065 → decodeWord op = some (.ldVxMem x)) ∧
    (op &&& 0xF000 = 0xF000 →
      op &&& 0x00FF ∉ [(0x07 : Word), 0x0A, 0x15, 0x18, 0x1E, 0x29, 0x33, 0x55, 0x65] → decodeWord op = none)

/-- R91: the opcode table has 34 rows, no two of them match one word; and (R84) a word is Unknown exactly when it matches
none. -/
def Obligations.PatternsAreDisjointAndComplete : Prop :=
  opcodeRows.length = 34 ∧
  (∀ op : Word, ∀ j k : Fin 34,
    op &&& (opcodeRows.getD j (0, 0)).1 = (opcodeRows.getD j (0, 0)).2 →
    op &&& (opcodeRows.getD k (0, 0)).1 = (opcodeRows.getD k (0, 0)).2 → j = k) ∧
  (∀ op : Word, decodeWord op = none ↔ ∀ row ∈ opcodeRows, op &&& row.1 ≠ row.2)

/-- Words written out in spec/41 to spec/45's examples decode to their instructions, and two Unknown words to none. -/
def Obligations.ExampleWordsDecode : Prop :=
  decodeWord 0b0000000011101110 = some .ret ∧
  decodeWord 0b0010001000010000 = some (.callAddr 0x210) ∧
  decodeWord 0b0011001100010000 = some (.seVxByte 3 0x10) ∧
  decodeWord 0b1000000100100101 = some (.subVxVy 1 2) ∧
  decodeWord 0b1011001100000000 = some (.jpV0Addr 0x300) ∧
  decodeWord 0b1101000100100010 = some (.drwVxVyNibble 1 2 2) ∧
  decodeWord 0b1110010110100001 = some (.sknpVx 5) ∧
  decodeWord 0b1111101000110011 = some (.ldBVx 0xA) ∧
  decodeWord 0b0101000000000001 = none ∧
  decodeWord 0b0000000111100000 = none

/-! ## The cycle (spec/30_encoding.md R94 to R102; spec/60_exceptions.md R240 to R261) -/

/-- R94, R98, R99: when the CORE fetches and the word at `pc` decodes to `i`, the step is `exec i` on the state with the
outputs cleared, and the Timer Unit after it unless it raised. The cycle itself adds nothing to `pc`. -/
def Obligations.StepRunsTheFetchedInstruction : Prop :=
  ∀ (s : State) (op : Word) (i : Instr), FetchesWord s op → decodeWord op = some i →
    step s =
      match exec i { s with toneEnd := false, diag := none } with
      | .next t => .next (if t.fault = none then t.timerUpdate else t)
      | .fault e => .fault e
      | .refused e => .refused e

/-- Every instruction in every state, and every step from every state, answers a next state: no word, operand or state
stops the machine other than through the spec's own halt (log entry 3). -/
def Obligations.EveryStepAnswersANextState : Prop :=
  (∀ (i : Instr) (s : State), ∃ t, exec i s = .next t) ∧ ∀ s : State, ∃ t, step s = .next t

/-- R95, and R96's stall: a halted step, and a step in a key wait with no key pressed, change nothing but the two per-step
outputs, timers included (decisions D3, D10). -/
def Obligations.HaltedAndStalledStepsDoNothing : Prop :=
  (∀ s : State, s.fault ≠ none → step s = .next { s with toneEnd := false, diag := none }) ∧
  (∀ (s : State) (x : Reg), s.fault = none → s.waitKey = some x → (∀ k : Fin 16, s.key[k] = false) →
    step s = .next { s with toneEnd := false, diag := none })

/-- R96, resolution: the smallest pressed key's index goes to V[x], the wait ends, `pc` passes the FX0A and the timers tick
once; nothing else changes (decisions D10, D11, D12). -/
def Obligations.KeyWaitResolvesToSmallestKey : Prop :=
  ∀ (s : State) (x : Reg) (k : Fin 16), s.fault = none → s.waitKey = some x →
    s.key[k] = true → (∀ j : Fin 16, j < k → s.key[j] = false) →
    step s = .next { s with
      V := s.V.set x (BitVec.ofNat 8 k.val)
      waitKey := none
      pc := s.pc + 2
      DT := ticked s.DT
      ST := ticked s.ST
      toneEnd := decide (s.ST.toNat = 1)
      diag := none }

/-- R97: a fetch with `pc` odd, below 0x200 or above 0xFFE raises PcOutOfRange, with no opcode and no detail (decision
D5). -/
def Obligations.BadPcRaisesPcOutOfRange : Prop :=
  ∀ s : State, s.fault = none → s.waitKey = none →
    (s.pc.toNat % 2 = 1 ∨ s.pc.toNat < 0x200 ∨ 0xFFE < s.pc.toNat) →
    ∃ t, step s = .next t ∧ RaisedAs s t .pcOutOfRange none none

/-- R100: an Unknown word is reported with its own address, `pc` advances by 2, the timers tick, and nothing else changes
(the reported address is decision D19). -/
def Obligations.UnknownWordIsAReportedNoOp : Prop :=
  ∀ (s : State) (op : Word), FetchesWord s op → decodeWord op = none →
    step s = .next { s with
      pc := s.pc + 2
      DT := ticked s.DT
      ST := ticked s.ST
      toneEnd := decide (s.ST.toNat = 1)
      diag := some { rawOpcode := op, programCounter := s.pc } }

/-- R260, R101: in a step that is halted, that stalls in the key wait or that raises, the timers keep their values and no
tone end is emitted; in every other step each timer above 0 counts down by one from its value after the instruction's
effects, and `toneEnd` is emitted exactly when ST was 1 there. -/
def Obligations.TimersTickExactlyInCompletingSteps : Prop :=
  ∀ s t : State, step s = .next t →
    (s.fault ≠ none ∨ t.fault ≠ none ∨ (s.waitKey ≠ none ∧ ∀ k : Fin 16, s.key[k] = false) →
      t.DT = s.DT ∧ t.ST = s.ST ∧ t.toneEnd = false) ∧
    (s.fault = none → t.fault = none → (s.waitKey = none ∨ ∃ k : Fin 16, s.key[k] = true) →
      t.DT.toNat = (timersToTick s).1.toNat - 1 ∧ t.ST.toNat = (timersToTick s).2.toNat - 1 ∧
      (t.toneEnd = true ↔ (timersToTick s).2.toNat = 1))

/-- R102, R243: a step that raises changes no state but the fault record; the timers do not tick and both outputs are
cleared (decision D4). -/
def Obligations.FaultingStepChangesOnlyTheRecord : Prop :=
  ∀ (s t : State) (r : FaultRecord), s.fault = none → step s = .next t → t.fault = some r →
    r.pc = s.pc ∧ t = { s with fault := some r, toneEnd := false, diag := none }

/-- R34, R241, R243, R247: a record carries the `pc` of the step that faulted. It is of PcOutOfRange, with no opcode and no
detail, and that `pc` is odd, below 0x200 or above 0xFFE; or it holds the fetched word, which decodes to an instruction that
the table of R241 lets raise the condition, and the detail that the table gives: the first address of 4096 or more, the font
address, the register's value, or none (decisions D2 to D9; log entries 8 and 9). -/
def Obligations.FaultRecordFitsTheFetchedInstruction : Prop :=
  ∀ (s t : State) (r : FaultRecord), s.fault = none → step s = .next t → t.fault = some r →
    r.pc = s.pc ∧
    ((r.cause = .pcOutOfRange ∧ r.opcode = none ∧ r.detail = none ∧ s.waitKey = none ∧
        (r.pc.toNat % 2 = 1 ∨ r.pc.toNat < 0x200 ∨ 0xFFE < r.pc.toNat)) ∨
      (∃ op i, FetchesWord s op ∧ r.opcode = some op ∧ decodeWord op = some i ∧ raisedBy r.cause i = true ∧
        r.detail = detailOf s i r.cause))

/-! ## Control transfer and stack (spec/41_control_stack.md) -/

/-- R120, 00EE: on a non-empty stack `sp` counts down and `pc` is the top entry, which stays; on an empty one
StackUnderflow is raised and nothing else is written (R243, decision D4; log entry 9). A popped value out of range faults at
the next fetch (R97, decision D5; log entry 8). -/
def Obligations.ReturnPopsOrUnderflows : Prop :=
  decodeWord 0x00EE = some .ret ∧
  ∀ s : State,
    (∀ j : Fin 16, s.sp.val = j.val + 1 →
      ∃ t, exec .ret s = .next t ∧ t.sp.val = j.val ∧ t.pc = s.stack[j] ∧ Keeps [.sp] [] [] s t ∧
        BadPcFaultsNext t) ∧
    (s.sp.val = 0 → ∃ t, exec .ret s = .next t ∧ RaisedAs s t .stackUnderflow (some 0x00EE) none)

/-- R121, 1NNN: `pc` is NNN and nothing else changes; a target out of range faults at the next fetch (the fault itself is
decision D5). -/
def Obligations.JumpGoesToTheAddress : Prop :=
  ∀ (nnn : Addr) (s : State),
    decodeWord (BitVec.ofNat 16 (0x1000 + nnn.toNat)) = some (.jpAddr nnn) ∧
    ∃ t, exec (.jpAddr nnn) s = .next t ∧ t.pc.toNat = nnn.toNat ∧ Keeps [] [] [] s t ∧ BadPcFaultsNext t

/-- R122, 2NNN: with room on the stack the address of the next instruction is pushed and `pc` is NNN; with 16 entries in
use StackOverflow is raised (16 nested calls succeed: decision D22). -/
def Obligations.CallPushesOrOverflows : Prop :=
  ∀ (nnn : Addr) (s : State),
    (∀ j : Fin 16, s.sp.val = j.val →
      ∃ t, exec (.callAddr nnn) s = .next t ∧ t.stack[j] = s.pc + 2 ∧
        (∀ k : Fin 16, k ≠ j → t.stack[k] = s.stack[k]) ∧
        t.sp.val = j.val + 1 ∧ t.pc.toNat = nnn.toNat ∧ Keeps [.stack, .sp] [] [] s t ∧ BadPcFaultsNext t) ∧
    (s.sp.val = 16 →
      ∃ t, exec (.callAddr nnn) s = .next t ∧
        RaisedAs s t .stackOverflow (some (BitVec.ofNat 16 (0x2000 + nnn.toNat))) none)

/-- R123, BNNN: `pc` is the exact sum NNN + V0 and nothing else changes, VF included; a target out of range is kept and
faults at the next fetch (decision D5). -/
def Obligations.ComputedJumpAddsV0 : Prop :=
  ∀ (nnn : Addr) (s : State),
    ∃ t, exec (.jpV0Addr nnn) s = .next t ∧ t.pc.toNat = nnn.toNat + (s.reg 0).toNat ∧ Keeps [] [] [] s t ∧
      BadPcFaultsNext t

/-- R130: a call and then a return, with the stack and `sp` as the call left them, restore `pc` to the instruction after
the call, and `sp` to its value before it. -/
def Obligations.CallThenReturnRoundTrip : Prop :=
  ∀ (nnn : Addr) (s t u v : State), s.sp.val < 16 → exec (.callAddr nnn) s = .next t →
    u.sp = t.sp → u.stack = t.stack → exec .ret u = .next v →
    v.pc = s.pc + 2 ∧ v.sp = s.sp ∧ v.fault = u.fault

/-- R124 to R127: each skip advances `pc` by 4 exactly when its condition holds and by 2 otherwise, and changes nothing
else; a skip out of range faults at the next fetch (R128, R97, decision D5; log entry 8). -/
def Obligations.SkipsAdvanceByFourOrTwo : Prop :=
  (∀ (x : Reg) (nn : Byte) (s : State),
    decodeWord (BitVec.ofNat 16 (0x3000 + 0x100 * x.val + nn.toNat)) = some (.seVxByte x nn) ∧
    ∃ t, exec (.seVxByte x nn) s = .next t ∧
      t.pc = s.pc + (if (s.reg x).toNat = nn.toNat then 4 else 2) ∧ Keeps [] [] [] s t ∧ BadPcFaultsNext t) ∧
  (∀ (x : Reg) (nn : Byte) (s : State),
    decodeWord (BitVec.ofNat 16 (0x4000 + 0x100 * x.val + nn.toNat)) = some (.sneVxByte x nn) ∧
    ∃ t, exec (.sneVxByte x nn) s = .next t ∧
      t.pc = s.pc + (if (s.reg x).toNat = nn.toNat then 2 else 4) ∧ Keeps [] [] [] s t ∧ BadPcFaultsNext t) ∧
  (∀ (x y : Reg) (s : State),
    decodeWord (BitVec.ofNat 16 (0x5000 + 0x100 * x.val + 0x10 * y.val)) = some (.seVxVy x y) ∧
    ∃ t, exec (.seVxVy x y) s = .next t ∧
      t.pc = s.pc + (if (s.reg x).toNat = (s.reg y).toNat then 4 else 2) ∧ Keeps [] [] [] s t ∧ BadPcFaultsNext t) ∧
  (∀ (x y : Reg) (s : State),
    decodeWord (BitVec.ofNat 16 (0x9000 + 0x100 * x.val + 0x10 * y.val)) = some (.sneVxVy x y) ∧
    ∃ t, exec (.sneVxVy x y) s = .next t ∧
      t.pc = s.pc + (if (s.reg x).toNat = (s.reg y).toNat then 2 else 4) ∧ Keeps [] [] [] s t ∧ BadPcFaultsNext t)

/-! ## Register ALU (spec/42_register_alu.md) -/

/-- R152, R153: V[X] is NN, or V[X] + NN modulo 256; no flag is written. -/
def Obligations.ImmediateLoadAndAdd : Prop :=
  ∀ (x : Reg) (nn : Byte) (s : State),
    (decodeWord (BitVec.ofNat 16 (0x6000 + 0x100 * x.val + nn.toNat)) = some (.ldVxByte x nn) ∧
      ∃ t, exec (.ldVxByte x nn) s = .next t ∧ t.reg x = nn ∧ t.pc = s.pc + 2 ∧ Keeps [] [x] [] s t) ∧
    (decodeWord (BitVec.ofNat 16 (0x7000 + 0x100 * x.val + nn.toNat)) = some (.addVxByte x nn) ∧
      ∃ t, exec (.addVxByte x nn) s = .next t ∧ (t.reg x).toNat = ((s.reg x).toNat + nn.toNat) % 256 ∧
        t.pc = s.pc + 2 ∧ Keeps [] [x] [] s t)

/-- R154 to R157: V[X] is V[Y], or the bitwise OR, AND or XOR of the two; no flag is written, so VF changes only as the
destination. -/
def Obligations.MoveAndLogicWriteOnlyVx : Prop :=
  ∀ (x y : Reg) (s : State),
    (decodeWord (BitVec.ofNat 16 (0x8000 + 0x100 * x.val + 0x10 * y.val)) = some (.ldVxVy x y) ∧
      ∃ t, exec (.ldVxVy x y) s = .next t ∧ t.reg x = s.reg y ∧ t.pc = s.pc + 2 ∧ Keeps [] [x] [] s t) ∧
    (decodeWord (BitVec.ofNat 16 (0x8001 + 0x100 * x.val + 0x10 * y.val)) = some (.orVxVy x y) ∧
      ∃ t, exec (.orVxVy x y) s = .next t ∧
        (∀ b : Fin 8, (t.reg x)[b] = ((s.reg x)[b] || (s.reg y)[b])) ∧ t.pc = s.pc + 2 ∧ Keeps [] [x] [] s t) ∧
    (decodeWord (BitVec.ofNat 16 (0x8002 + 0x100 * x.val + 0x10 * y.val)) = some (.andVxVy x y) ∧
      ∃ t, exec (.andVxVy x y) s = .next t ∧
        (∀ b : Fin 8, (t.reg x)[b] = ((s.reg x)[b] && (s.reg y)[b])) ∧ t.pc = s.pc + 2 ∧ Keeps [] [x] [] s t) ∧
    (decodeWord (BitVec.ofNat 16 (0x8003 + 0x100 * x.val + 0x10 * y.val)) = some (.xorVxVy x y) ∧
      ∃ t, exec (.xorVxVy x y) s = .next t ∧
        (∀ b : Fin 8, (t.reg x)[b] = ((s.reg x)[b] != (s.reg y)[b])) ∧ t.pc = s.pc + 2 ∧ Keeps [] [x] [] s t)

/-- R158, R150: 8XY4 writes the sum modulo 256 to V[X] and the carry to VF; with X = F the sum is what VF ends as
(decision D13). -/
def Obligations.AddSetsCarry : Prop :=
  ∀ (x y : Reg) (s : State),
    ∃ t, exec (.addVxVy x y) s = .next t ∧
      (t.reg x).toNat = ((s.reg x).toNat + (s.reg y).toNat) % 256 ∧
      (x ≠ VF → (t.reg VF).toNat = if 255 < (s.reg x).toNat + (s.reg y).toNat then 1 else 0) ∧
      t.pc = s.pc + 2 ∧ Keeps [] [x, VF] [] s t

/-- R159, R161, R150: 8XY5 and 8XY7 write the difference modulo 256 to V[X] and NOT borrow to VF; with X = F the difference
is what VF ends as (decision D13). -/
def Obligations.SubtractionsSetNotBorrow : Prop :=
  ∀ (x y : Reg) (s : State),
    (∃ t, exec (.subVxVy x y) s = .next t ∧
      ((t.reg x).toNat : Int) = (((s.reg x).toNat : Int) - (s.reg y).toNat) % 256 ∧
      (x ≠ VF → (t.reg VF).toNat = if (s.reg y).toNat ≤ (s.reg x).toNat then 1 else 0) ∧
      t.pc = s.pc + 2 ∧ Keeps [] [x, VF] [] s t) ∧
    (∃ t, exec (.subnVxVy x y) s = .next t ∧
      ((t.reg x).toNat : Int) = (((s.reg y).toNat : Int) - (s.reg x).toNat) % 256 ∧
      (x ≠ VF → (t.reg VF).toNat = if (s.reg x).toNat ≤ (s.reg y).toNat then 1 else 0) ∧
      t.pc = s.pc + 2 ∧ Keeps [] [x, VF] [] s t)

/-- R160, R162, R150: 8XY6 and 8XYE shift V[Y], not V[X], by one into V[X], and the bit moved out goes to VF; with X = F the
shifted value is what VF ends as (decision D13). -/
def Obligations.ShiftsReadVyAndSetTheBitMovedOut : Prop :=
  ∀ (x y : Reg) (s : State),
    (∃ t, exec (.shrVxVy x y) s = .next t ∧
      (t.reg x).toNat = (s.reg y).toNat / 2 ∧ (x ≠ VF → (t.reg VF).toNat = (s.reg y).toNat % 2) ∧
      t.pc = s.pc + 2 ∧ Keeps [] [x, VF] [] s t) ∧
    (∃ t, exec (.shlVxVy x y) s = .next t ∧
      (t.reg x).toNat = 2 * (s.reg y).toNat % 256 ∧ (x ≠ VF → (t.reg VF).toNat = (s.reg y).toNat / 128) ∧
      t.pc = s.pc + 2 ∧ Keeps [] [x, VF] [] s t)

/-- R163: V[X] is some byte AND NN, so bits clear in NN are clear in the result; the byte is the free value of log entry 2
for this draw, and the draw is counted. Nothing is said of the byte (decision D14). -/
def Obligations.RandomByteIsMasked : Prop :=
  ∀ (x : Reg) (nn : Byte) (s : State),
    ∃ t, exec (.rndVxByte x nn) s = .next t ∧ t.reg x = Config.randomByte s.draws &&& nn ∧
      (∀ b : Fin 8, nn[b] = false → (t.reg x)[b] = false) ∧ t.draws = s.draws + 1 ∧ t.pc = s.pc + 2 ∧
      Keeps [.draws] [x] [] s t

/-! ## Index register and memory (spec/20_memory.md, spec/43_index_memory.md) -/

/-- R55, R56, R64: reading an address gives the last byte written there, and a write leaves every other address alone;
the canonical form survives a write that R56 lets through. -/
def Obligations.ReadAfterWrite : Prop :=
  ∀ (m : Memory) (a b : Nat) (v : Byte),
    (m.write a v).read b = (if b = a then v else m.read b) ∧
    (m.wf = true → 0x50 ≤ a → a < 4096 → (m.write a v).wf = true)

/-- R180, R181: I is NNN, or I + V[X] modulo 65536; no flag is written. -/
def Obligations.IndexLoadAndAdd : Prop :=
  (∀ (nnn : Addr) (s : State),
    decodeWord (BitVec.ofNat 16 (0xA000 + nnn.toNat)) = some (.ldIAddr nnn) ∧
    ∃ t, exec (.ldIAddr nnn) s = .next t ∧ t.I.toNat = nnn.toNat ∧ t.pc = s.pc + 2 ∧ Keeps [.I] [] [] s t) ∧
  (∀ (x : Reg) (s : State),
    decodeWord (BitVec.ofNat 16 (0xF01E + 0x100 * x.val)) = some (.addIVx x) ∧
    ∃ t, exec (.addIVx x) s = .next t ∧ t.I.toNat = (s.I.toNat + (s.reg x).toNat) % 65536 ∧ t.pc = s.pc + 2 ∧
      Keeps [.I] [] [] s t)

/-- R182: I is V[X] times 5 for every value of V[X], the high nibble not masked (decision D23). -/
def Obligations.FontPointerIsFiveTimesVx : Prop :=
  ∀ (x : Reg) (s : State),
    ∃ t, exec (.ldFVx x) s = .next t ∧ t.I.toNat = 5 * (s.reg x).toNat ∧ t.pc = s.pc + 2 ∧ Keeps [.I] [] [] s t

/-- R183: with I, I+1 and I+2 in 0x050 to 0xFFF, they get the hundreds, tens and ones digit of V[X]; every other byte and
all else stays. -/
def Obligations.DecimalDigitsAreStored : Prop :=
  ∀ (x : Reg) (s : State), 0x50 ≤ s.I.toNat → s.I.toNat + 2 < 4096 →
    ∃ t, exec (.ldBVx x) s = .next t ∧
      (t.mem.read s.I.toNat).toNat = (s.reg x).toNat / 100 ∧
      (t.mem.read (s.I.toNat + 1)).toNat = (s.reg x).toNat / 10 % 10 ∧
      (t.mem.read (s.I.toNat + 2)).toNat = (s.reg x).toNat % 10 ∧
      t.pc = s.pc + 2 ∧ Keeps [] [] [s.I.toNat, s.I.toNat + 1, s.I.toNat + 2] s t

/-- R184: with I to I+X in 0x050 to 0xFFF, memory[I+k] gets V[k] for every k up to X; every other byte and all else stays,
I included. -/
def Obligations.RegistersAreStored : Prop :=
  ∀ (x : Reg) (s : State), 0x50 ≤ s.I.toNat → s.I.toNat + x.val < 4096 →
    ∃ t, exec (.ldMemVx x) s = .next t ∧
      (∀ k : Reg, k ≤ x → t.mem.read (s.I.toNat + k.val) = s.reg k) ∧
      t.pc = s.pc + 2 ∧ Keeps [] [] ((List.range (x.val + 1)).map (s.I.toNat + ·)) s t

/-- R183, R184, R56, R248: a store whose first address is in the font region raises FontWrite with that address; one that
starts above it and runs past 0xFFF raises AddressOutOfRange with the first address of 4096 or more. Nothing is written
(decisions D4, D6, D7). -/
def Obligations.StoresOutsideRamRaise : Prop :=
  ∀ (x : Reg) (s : State),
    (s.I.toNat < 0x50 →
      (∃ t, exec (.ldBVx x) s = .next t ∧
        RaisedAs s t .fontWrite (some (BitVec.ofNat 16 (0xF033 + 0x100 * x.val))) (some s.I.toNat)) ∧
      (∃ t, exec (.ldMemVx x) s = .next t ∧
        RaisedAs s t .fontWrite (some (BitVec.ofNat 16 (0xF055 + 0x100 * x.val))) (some s.I.toNat))) ∧
    (4096 ≤ s.I.toNat + 2 →
      ∃ t, exec (.ldBVx x) s = .next t ∧
        RaisedAs s t .addressOutOfRange (some (BitVec.ofNat 16 (0xF033 + 0x100 * x.val)))
          (some (max s.I.toNat 4096))) ∧
    (4096 ≤ s.I.toNat + x.val →
      ∃ t, exec (.ldMemVx x) s = .next t ∧
        RaisedAs s t .addressOutOfRange (some (BitVec.ofNat 16 (0xF055 + 0x100 * x.val)))
          (some (max s.I.toNat 4096)))

/-- R185: with I+X at most 0xFFF, V[k] gets memory[I+k] for every k up to X, the font region included; the other registers
and all else stays, I included. Past 0xFFF AddressOutOfRange is raised with the first such address and no register is
written (decision D6). -/
def Obligations.RegistersAreLoaded : Prop :=
  ∀ (x : Reg) (s : State),
    (s.I.toNat + x.val < 4096 →
      ∃ t, exec (.ldVxMem x) s = .next t ∧
        (∀ k : Reg, k ≤ x → t.reg k = s.mem.read (s.I.toNat + k.val)) ∧
        t.pc = s.pc + 2 ∧ Keeps [] ((List.finRange 16).filter (· ≤ x)) [] s t) ∧
    (4096 ≤ s.I.toNat + x.val →
      ∃ t, exec (.ldVxMem x) s = .next t ∧
        RaisedAs s t .addressOutOfRange (some (BitVec.ofNat 16 (0xF065 + 0x100 * x.val)))
          (some (max s.I.toNat 4096)))

/-- R67: a byte stored over the program is seen by the very next fetch: after FX55 at I = pc + 2 with X ≥ 1, the next word
fetched is V0 then V1. -/
def Obligations.StoredCodeIsFetchedNext : Prop :=
  ∀ (x : Reg) (s t : State), s.I.toNat = s.pc.toNat + 2 → 0x50 ≤ s.I.toNat → s.I.toNat + x.val < 4096 → 1 ≤ x.val →
    exec (.ldMemVx x) s = .next t → t.fetchWord = s.reg 0 ++ s.reg 1

/-! ## Display (spec/44_display.md) -/

/-- R202: all pixels are off, `dirty` is set, and nothing else changes, VF included. -/
def Obligations.ClearTurnsAllPixelsOff : Prop :=
  decodeWord 0x00E0 = some .cls ∧
  ∀ s : State,
    ∃ t, exec .cls s = .next t ∧ (∀ (x : Fin 64) (y : Fin 32), t.fb[y][x] = false) ∧ t.dirty = true ∧
      t.pc = s.pc + 2 ∧ Keeps [.fb, .dirty] [] [] s t

/-- R203, R200, R201: with the sprite's rows in memory, each pixel that a 1 bit of the sprite covers (wrapped modulo 64 and
32) flips and no other does; VF is 1 exactly when a covered pixel was on; `dirty` is set. The bit order is decision D16
(log entry 5). -/
def Obligations.DrawFlipsTheCoveredPixels : Prop :=
  ∀ (x y : Reg) (n : Count) (s : State), n.val = 0 ∨ s.I.toNat + n.val ≤ 4096 →
    ∃ t, exec (.drwVxVyNibble x y n) s = .next t ∧
      (∀ (px : Fin 64) (py : Fin 32),
        (SpriteCovers s.mem s.I.toNat (s.reg x).toNat (s.reg y).toNat n.val px py → t.fb[py][px] = !s.fb[py][px]) ∧
        (¬ SpriteCovers s.mem s.I.toNat (s.reg x).toNat (s.reg y).toNat n.val px py →
          t.fb[py][px] = s.fb[py][px])) ∧
      (t.reg VF = 0 ∨ t.reg VF = 1) ∧
      (t.reg VF = 1 ↔ ∃ (px : Fin 64) (py : Fin 32),
        SpriteCovers s.mem s.I.toNat (s.reg x).toNat (s.reg y).toNat n.val px py ∧ s.fb[py][px] = true) ∧
      t.dirty = true ∧ t.pc = s.pc + 2 ∧ Keeps [.fb, .dirty] [VF] [] s t

/-- R203, R57: with N ≥ 1 and a row at 4096 or above, DXYN raises AddressOutOfRange with the first such address; the
framebuffer, VF and `dirty` stay (decisions D4, D6). -/
def Obligations.DrawPastMemoryRaises : Prop :=
  ∀ (x y : Reg) (n : Count) (s : State), 1 ≤ n.val → 4096 < s.I.toNat + n.val →
    ∃ t, exec (.drwVxVyNibble x y n) s = .next t ∧
      RaisedAs s t .addressOutOfRange (some (BitVec.ofNat 16 (0xD000 + 0x100 * x.val + 0x10 * y.val + n.val)))
        (some (max s.I.toNat 4096))

/-- R204: drawing twice, with the same coordinates, I, sprite bytes and the framebuffer of the first draw, restores the
framebuffer. By R203 the second draw sets VF to 1 exactly when some covered pixel was off before the first; so where the
first draw had no collision, exactly when some sprite row has a 1 bit (log entry 6). -/
def Obligations.DrawTwiceRestoresTheScreen : Prop :=
  ∀ (x y : Reg) (n : Count) (s t u v : State), n.val = 0 ∨ s.I.toNat + n.val ≤ 4096 →
    exec (.drwVxVyNibble x y n) s = .next t →
    u.fb = t.fb → u.I = s.I → u.reg x = s.reg x → u.reg y = s.reg y →
    (∀ r, r < n.val → u.mem.read (s.I.toNat + r) = s.mem.read (s.I.toNat + r)) →
    exec (.drwVxVyNibble x y n) u = .next v →
    v.fb = s.fb ∧
    (v.reg VF = 1 ↔ ∃ (px : Fin 64) (py : Fin 32),
      SpriteCovers s.mem s.I.toNat (s.reg x).toNat (s.reg y).toNat n.val px py ∧ s.fb[py][px] = false) ∧
    (t.reg VF = 0 → (v.reg VF = 1 ↔ ∃ r, r < n.val ∧ s.mem.read (s.I.toNat + r) ≠ 0))

/-- R204's last sentence read for every framebuffer: the second of two equal draws sets VF to 1 exactly when some sprite
row has a 1 bit, whatever was on the screen before the first. R203 decides it otherwise for a sprite drawn on its own lit
pixels (off, then on again), and the model follows R203 (log entry 6). -/
def Obligations.SecondDrawAlwaysCollides : Prop :=
  ∀ (x y : Reg) (n : Count) (s t u v : State), n.val = 0 ∨ s.I.toNat + n.val ≤ 4096 →
    exec (.drwVxVyNibble x y n) s = .next t →
    u.fb = t.fb → u.I = s.I → u.reg x = s.reg x → u.reg y = s.reg y →
    (∀ r, r < n.val → u.mem.read (s.I.toNat + r) = s.mem.read (s.I.toNat + r)) →
    exec (.drwVxVyNibble x y n) u = .next v →
    (v.reg VF = 1 ↔ ∃ r, r < n.val ∧ s.mem.read (s.I.toNat + r) ≠ 0)

/-! ## Keypad and timers (spec/45_keypad_timer_instr.md) -/

/-- R220, R221: with V[X] at most 15, EX9E skips when that key is pressed and EXA1 when it is not; above 15
KeyIndexOutOfRange is raised with the register's value (decision D9). -/
def Obligations.KeySkipsTestTheKey : Prop :=
  ∀ (x : Reg) (s : State),
    (∀ k : Fin 16, (s.reg x).toNat = k.val →
      (∃ t, exec (.skpVx x) s = .next t ∧ t.pc = s.pc + (if s.key[k] = true then 4 else 2) ∧ Keeps [] [] [] s t) ∧
      (∃ t, exec (.sknpVx x) s = .next t ∧ t.pc = s.pc + (if s.key[k] = true then 2 else 4) ∧ Keeps [] [] [] s t)) ∧
    (15 < (s.reg x).toNat →
      (∃ t, exec (.skpVx x) s = .next t ∧
        RaisedAs s t .keyIndexOutOfRange (some (BitVec.ofNat 16 (0xE09E + 0x100 * x.val)))
          (some (s.reg x).toNat)) ∧
      (∃ t, exec (.sknpVx x) s = .next t ∧
        RaisedAs s t .keyIndexOutOfRange (some (BitVec.ofNat 16 (0xE0A1 + 0x100 * x.val)))
          (some (s.reg x).toNat)))

/-- R222, R224, R225: FX07 reads DT, FX15 and FX18 write DT and ST from V[X], and nothing else changes. -/
def Obligations.TimerReadsAndWrites : Prop :=
  ∀ (x : Reg) (s : State),
    (decodeWord (BitVec.ofNat 16 (0xF007 + 0x100 * x.val)) = some (.ldVxDT x) ∧
      ∃ t, exec (.ldVxDT x) s = .next t ∧ t.reg x = s.DT ∧ t.pc = s.pc + 2 ∧ Keeps [] [x] [] s t) ∧
    (decodeWord (BitVec.ofNat 16 (0xF015 + 0x100 * x.val)) = some (.ldDTVx x) ∧
      ∃ t, exec (.ldDTVx x) s = .next t ∧ t.DT = s.reg x ∧ t.pc = s.pc + 2 ∧ Keeps [.DT] [] [] s t) ∧
    (decodeWord (BitVec.ofNat 16 (0xF018 + 0x100 * x.val)) = some (.ldSTVx x) ∧
      ∃ t, exec (.ldSTVx x) s = .next t ∧ t.ST = s.reg x ∧ t.pc = s.pc + 2 ∧ Keeps [.ST] [] [] s t)

/-- R295: a program that writes DT by FX15 and reads it by FX07 in the next instruction reads one less than it wrote (or
0), because the Timer Unit ran between. -/
def Obligations.TimerReadBackIsOneLower : Prop :=
  ∀ (s t u : State) (op op' : Word) (x y : Reg), FetchesWord s op → decodeWord op = some (.ldDTVx x) →
    step s = .next t → FetchesWord t op' → decodeWord op' = some (.ldVxDT y) → step t = .next u →
    (u.reg y).toNat = (s.reg x).toNat - 1

/-- R223: FX0A sets the key wait to X and does not advance `pc`; nothing else changes (decision D12). -/
def Obligations.KeyWaitIsSetWithoutAdvancing : Prop :=
  ∀ (x : Reg) (s : State),
    ∃ t, exec (.ldVxK x) s = .next t ∧ t.waitKey = some x ∧ t.pc = s.pc ∧ Keeps [.waitKey] [] [] s t

/-! ## Reset and host ports (spec/70_reset_and_hazards.md R290, R292; spec/20_memory.md R69; spec/60_exceptions.md) -/

/-- R290 and the reset summary: after `initialize`, from any state, every element is at its reset value and the font region
holds FONT; a second `initialize` changes nothing; and the machine's reset state has the same values, with the default FONT
(log entry 1). Some values are decision D18. -/
def Obligations.InitializeResetsEveryElement : Prop :=
  (∀ s : State, ResetValues s.mem.font (hostInitialize s) ∧ hostInitialize (hostInitialize s) = hostInitialize s) ∧
  ResetValues defaultFont State.reset

/-- R69: a program of at most 3584 bytes is copied to 0x200 onwards and nothing else changes; a longer one is refused with
ProgramTooLarge and no state changes. -/
def Obligations.LoadProgramCopiesOrRefuses : Prop :=
  ∀ (bytes : List Byte) (s : State),
    (bytes.length ≤ 4096 - 512 →
      (loadProgram bytes s).1 = .success ∧
      (∀ k : Fin bytes.length, (loadProgram bytes s).2.mem.read (512 + k.val) = bytes[k]) ∧
      (∀ a, a < 512 ∨ 512 + bytes.length ≤ a → (loadProgram bytes s).2.mem.read a = s.mem.read a) ∧
      (loadProgram bytes s).2 = { s with mem := (loadProgram bytes s).2.mem }) ∧
    (4096 - 512 < bytes.length → loadProgram bytes s = (.programTooLarge, s))

/-- R270, R271: `setKeyState` writes the one key it names and nothing else, and is refused outside 0 to 15 (decision D20);
`frameConsumed` clears `dirty` and nothing else. -/
def Obligations.KeyPortAndFramePort : Prop :=
  ∀ s : State,
    (∀ (k : Fin 16) (p : Bool),
      (setKeyState k p s).key[k] = p ∧ (∀ j : Fin 16, j ≠ k → (setKeyState k p s).key[j] = s.key[j]) ∧
      setKeyState k p s = { s with key := (setKeyState k p s).key }) ∧
    (∀ (index : Nat) (p : Bool), 15 < index → setKeyState index p s = s) ∧
    frameConsumed s = { s with dirty := false }

/-- R292: after `initialize` and a successful `loadProgram` of at least one word, the CORE fetches, and the word it fetches
is the program's first two bytes. -/
def Obligations.BootFetchesTheProgramsFirstWord : Prop :=
  ∀ (hi lo : Byte) (rest : List Byte) (s : State), rest.length + 2 ≤ 3584 →
    ∃ t, runSession [.port .hostInitialize, .port (.loadProgram (hi :: lo :: rest))] s = .next t ∧
      FetchesWord t (hi ++ lo)

/-- R30, R271: the display output's cell of number 64 y + x is the pixel of column x and row y; there are 2048 cells
(decision D17). -/
def Obligations.DisplayCellsAreRowMajor : Prop :=
  ∀ s : State,
    (displayCells s).length = 2048 ∧
    ∀ (x : Fin 64) (y : Fin 32), (displayCells s)[64 * y.val + x.val]? = some s.fb[y][x]

/-! ## Whole-machine rules and invariants -/

/-- R205: a step changes the framebuffer only by 00E0 or DXYN, and no port but `initialize` changes it. -/
def Obligations.OnlyClearAndDrawWriteTheScreen : Prop :=
  (∀ s t : State, step s = .next t → t.fb ≠ s.fb →
    ∃ op, FetchesWord s op ∧ (decodeWord op = some .cls ∨ ∃ x y n, decodeWord op = some (.drwVxVyNibble x y n))) ∧
  (∀ (c : PortCall) (s : State), c ≠ .hostInitialize → (applyPort c s).fb = s.fb)

/-- R22: VF changes in a step only by an instruction that sets it as a side effect or names it as its destination, or by
the resolution of a key wait for VF. -/
def Obligations.OnlyItsWritersChangeVF : Prop :=
  ∀ s t : State, step s = .next t → t.reg VF ≠ s.reg VF →
    s.waitKey = some VF ∨ ∃ op i, FetchesWord s op ∧ decodeWord op = some i ∧ writesVF i = true

/-- R20, R23, R26, R27, R31, R32: in a step I changes only by ANNN, FX1E or FX29, the stack only by 2NNN, `sp` only by
2NNN or 00EE. The key wait is set only by FX0A, and it is cleared only by a step that begins in it, not halted, with a key
pressed (its resolution, R96). The keypad and FONT never change in a step. -/
def Obligations.ControlElementsHaveOnlyTheirWriters : Prop :=
  ∀ s t : State, step s = .next t →
    (t.I ≠ s.I → ∃ op, FetchesWord s op ∧
      ((∃ nnn, decodeWord op = some (.ldIAddr nnn)) ∨ (∃ x, decodeWord op = some (.addIVx x)) ∨
        ∃ x, decodeWord op = some (.ldFVx x))) ∧
    (t.stack ≠ s.stack → ∃ op nnn, FetchesWord s op ∧ decodeWord op = some (.callAddr nnn)) ∧
    (t.sp ≠ s.sp → ∃ op, FetchesWord s op ∧
      (decodeWord op = some .ret ∨ ∃ nnn, decodeWord op = some (.callAddr nnn))) ∧
    (∀ x, t.waitKey = some x → t.waitKey ≠ s.waitKey →
      ∃ op, FetchesWord s op ∧ decodeWord op = some (.ldVxK x)) ∧
    (t.waitKey = none → t.waitKey ≠ s.waitKey → s.fault = none ∧ ∃ k : Fin 16, s.key[k] = true) ∧
    t.key = s.key ∧ t.mem.font = s.mem.font

/-- R54: no host call, step or port, changes bytes 0x000 to 0x04F of a memory in canonical form; and in a step only FX33
and FX55 change memory at all (the fault that keeps this is decision D7). -/
def Obligations.FontRegionIsImmutable : Prop :=
  (∀ (e : HostEvent) (s t : State), s.mem.wf = true → applyEvent e s = .next t →
    ∀ a, a < 0x50 → t.mem.read a = s.mem.read a) ∧
  (∀ s t : State, step s = .next t → t.mem ≠ s.mem →
    ∃ op x, FetchesWord s op ∧ (decodeWord op = some (.ldBVx x) ∨ decodeWord op = some (.ldMemVx x)))

/-- R244: no host call but `initialize` ends a halt or alters the record (decision D3). -/
def Obligations.HaltEndsOnlyByInitialize : Prop :=
  ∀ (e : HostEvent) (s t : State) (r : FaultRecord), s.fault = some r → e ≠ .port .hostInitialize →
    applyEvent e s = .next t → t.fault = some r

/-- R31: apart from a key wait and EX9E or EXA1, a step reads no key: with another keypad it does the same.
For CXNN the two runs agree because both take the same `draws`-th byte: equal draws are the model's choice, not the spec's
(log entry 2, DESIGN CHOICE; decision D14). -/
def Obligations.OnlyKeyInstructionsReadTheKeypad : Prop :=
  ∀ (s t : State) (key : Vector Bool 16), s.waitKey = none →
    (∀ op x, FetchesWord s op → decodeWord op ≠ some (.skpVx x) ∧ decodeWord op ≠ some (.sknpVx x)) →
    step s = .next t → step { s with key := key } = .next { t with key := key }

/-- R20, R38: ST reaches only ST itself and the tone end (through the Timer Unit, R260), and `dirty` only itself: from a
state with another ST a step ends in the same state but for ST and the tone end, and from one with another `dirty` in the
same state but for `dirty`. For CXNN the two runs agree because both take the same `draws`-th byte: equal draws are the
model's choice, not the spec's (log entry 2, DESIGN CHOICE; decision D14). -/
def Obligations.SoundTimerAndDirtyReachOnlyTheirOutputs : Prop :=
  ∀ s t : State, step s = .next t →
    (∀ st : Byte, ∃ st' e, step { s with ST := st } = .next { t with ST := st', toneEnd := e }) ∧
    (∀ d : Bool, ∃ d', step { s with dirty := d } = .next { t with dirty := d' })

/-- The invariant `Inv` is kept by every step and by every host port, from every state that has it: canonical memory with
nothing listed in the font region, `pc` at most 0x10FE, return addresses on the stack in use, a key wait at a fetchable
`pc`, a fault record that fits its condition and carries `pc`, outputs that fit the state. -/
def Obligations.EveryHostCallKeepsTheInvariant : Prop :=
  (∀ s t : State, Inv s → Sys2Proof.Machine.step s = .next t → Inv t) ∧
  (∀ (c : PortCall) (s : State), Inv s → Inv (applyPort c s))

/-- The invariant holds at reset. -/
def Obligations.ResetHasTheInvariant : Prop := Inv State.reset

/-- R120, R122, R26: from a state with the invariant, a return that does not raise goes to an even address of 0x202 to
0x1000, so the only bad target it can reach is 0x1000. -/
def Obligations.ReturnTargetsAreAligned : Prop :=
  ∀ s t : State, Inv s → exec .ret s = .next t → t.fault = none →
    t.pc.toNat % 2 = 0 ∧ 0x202 ≤ t.pc.toNat ∧ t.pc.toNat ≤ 0x1000

end
end

