-- ==== Sys2Proof/Laws/Decode.lean ====
section
/-! SUPPORT. The fields of a word as numbers, and the fields of the encoder's three word shapes
(spec/30_encoding.md R81, R82). -/

namespace Sys2Proof

/-! ### Fields as numbers -/

theorem opFamily_eq (op : Word) : opFamily op = op.toNat / 4096 := by
  simp only [opFamily, BitVec.extractLsb'_toNat, Nat.shiftRight_eq_div_pow]
  omega

theorem opX_val (op : Word) : (opX op).val = op.toNat / 256 % 16 := by
  simp [opX, Nat.shiftRight_eq_div_pow]

theorem opY_val (op : Word) : (opY op).val = op.toNat / 16 % 16 := by
  simp [opY, Nat.shiftRight_eq_div_pow]

theorem opN_val (op : Word) : (opN op).val = op.toNat % 16 := by
  simp [opN]

theorem opNN_toNat (op : Word) : (opNN op).toNat = op.toNat % 256 := by
  simp [opNN]

theorem opNNN_toNat (op : Word) : (opNNN op).toNat = op.toNat % 4096 := by
  simp [opNNN]

/-! ### The encoder's word shapes as numbers -/

theorem encodeXNN_toNat (f : BitVec 4) (x : Reg) (nn : Byte) :
    (encodeXNN f x nn).toNat = f.toNat * 4096 + x.val * 256 + nn.toNat := by
  have := nn.isLt
  have := x.isLt
  simp only [encodeXNN, nibble, BitVec.toNat_append, BitVec.toNat_ofFin]
  rw [← Nat.shiftLeft_add_eq_or_of_lt (by omega),
    ← Nat.shiftLeft_add_eq_or_of_lt (by omega)]
  simp only [Nat.shiftLeft_eq]
  omega

theorem encodeXYN_toNat (f : BitVec 4) (x y : Reg) (n : BitVec 4) :
    (encodeXYN f x y n).toNat = f.toNat * 4096 + x.val * 256 + y.val * 16 + n.toNat := by
  have := n.isLt
  have := x.isLt
  have := y.isLt
  simp only [encodeXYN, nibble, BitVec.toNat_append, BitVec.toNat_ofFin]
  rw [← Nat.shiftLeft_add_eq_or_of_lt (by omega), ← Nat.shiftLeft_add_eq_or_of_lt (by omega),
    ← Nat.shiftLeft_add_eq_or_of_lt (by omega)]
  simp only [Nat.shiftLeft_eq]
  omega

theorem encodeNNN_toNat (f : BitVec 4) (nnn : Addr) :
    (encodeNNN f nnn).toNat = f.toNat * 4096 + nnn.toNat := by
  have := nnn.isLt
  simp only [encodeNNN, BitVec.toNat_append]
  rw [← Nat.shiftLeft_add_eq_or_of_lt (by omega)]
  simp only [Nat.shiftLeft_eq]

/-! ### The fields of an encoded word -/

section
variable (f n : BitVec 4) (x y : Reg) (nn : Byte) (nnn : Addr)

@[simp] theorem opFamily_encodeXNN : opFamily (encodeXNN f x nn) = f.toNat := by
  have := nn.isLt; have := x.isLt
  rw [opFamily_eq, encodeXNN_toNat]; omega

@[simp] theorem opX_encodeXNN : opX (encodeXNN f x nn) = x := by
  have := nn.isLt; have := x.isLt
  ext; rw [opX_val, encodeXNN_toNat]; omega

@[simp] theorem opNN_encodeXNN : opNN (encodeXNN f x nn) = nn := by
  have := nn.isLt
  apply BitVec.eq_of_toNat_eq; rw [opNN_toNat, encodeXNN_toNat]; omega

@[simp] theorem opFamily_encodeXYN : opFamily (encodeXYN f x y n) = f.toNat := by
  have := n.isLt; have := x.isLt; have := y.isLt
  rw [opFamily_eq, encodeXYN_toNat]; omega

@[simp] theorem opX_encodeXYN : opX (encodeXYN f x y n) = x := by
  have := n.isLt; have := x.isLt; have := y.isLt
  ext; rw [opX_val, encodeXYN_toNat]; omega

@[simp] theorem opY_encodeXYN : opY (encodeXYN f x y n) = y := by
  have := n.isLt; have := x.isLt; have := y.isLt
  ext; rw [opY_val, encodeXYN_toNat]; omega

@[simp] theorem opN_encodeXYN : opN (encodeXYN f x y n) = n.toFin := by
  have := n.isLt
  apply Fin.ext; rw [opN_val, encodeXYN_toNat]; change _ = n.toNat; omega

@[simp] theorem opFamily_encodeNNN : opFamily (encodeNNN f nnn) = f.toNat := by
  have := nnn.isLt
  rw [opFamily_eq, encodeNNN_toNat]; omega

@[simp] theorem opNNN_encodeNNN : opNNN (encodeNNN f nnn) = nnn := by
  have := nnn.isLt
  apply BitVec.eq_of_toNat_eq; rw [opNNN_toNat, encodeNNN_toNat]; omega

end

/-! ### A word from its fields -/

/-- A word is its family, X and NN. -/
theorem encodeXNN_of_fields (op : Word) (f : BitVec 4) (h : opFamily op = f.toNat) :
    encodeXNN f (opX op) (opNN op) = op := by
  have := op.isLt
  rw [opFamily_eq] at h
  apply BitVec.eq_of_toNat_eq
  rw [encodeXNN_toNat, opX_val, opNN_toNat]; omega

/-- A word is its family, X, Y and the low nibble. -/
theorem encodeXYN_of_fields (op : Word) (f n : BitVec 4) (h : opFamily op = f.toNat) (hn : (opN op).val = n.toNat) :
    encodeXYN f (opX op) (opY op) n = op := by
  have := op.isLt
  rw [opFamily_eq] at h
  rw [opN_val] at hn
  apply BitVec.eq_of_toNat_eq
  rw [encodeXYN_toNat, opX_val, opY_val]; omega

/-- A word is its family and NNN. -/
theorem encodeNNN_of_fields (op : Word) (f : BitVec 4) (h : opFamily op = f.toNat) :
    encodeNNN f (opNNN op) = op := by
  have := op.isLt
  rw [opFamily_eq] at h
  apply BitVec.eq_of_toNat_eq
  rw [encodeNNN_toNat, opNNN_toNat]; omega

/-! ### Bytes of a word (R59) -/

theorem wordOfBytes_toNat (hi lo : Byte) : (wordOfBytes hi lo).toNat = hi.toNat * 256 + lo.toNat := by
  have := lo.isLt
  simp only [wordOfBytes, BitVec.toNat_append]
  rw [← Nat.shiftLeft_add_eq_or_of_lt (by omega)]
  simp only [Nat.shiftLeft_eq]

@[simp] theorem wordOfBytes_highByte_lowByte (op : Word) : wordOfBytes (highByte op) (lowByte op) = op := by
  have := op.isLt
  apply BitVec.eq_of_toNat_eq
  rw [wordOfBytes_toNat]
  simp only [highByte, lowByte, BitVec.extractLsb'_toNat, Nat.shiftRight_eq_div_pow]
  omega

/-! ### Masks (the opcode table's, R85 to R90) -/

/-- A word is its four nibbles. -/
theorem word_eq_nibbles (op : Word) :
    op = (op.extractLsb' 12 4 ++ op.extractLsb' 8 4 ++ op.extractLsb' 4 4 ++ op.extractLsb' 0 4 : BitVec 16) := by
  have := op.isLt
  apply BitVec.eq_of_toNat_eq
  simp only [BitVec.toNat_append, BitVec.extractLsb'_toNat, Nat.shiftRight_eq_div_pow]
  rw [← Nat.shiftLeft_add_eq_or_of_lt (by omega), ← Nat.shiftLeft_add_eq_or_of_lt (by omega),
    ← Nat.shiftLeft_add_eq_or_of_lt (by omega)]
  simp only [Nat.shiftLeft_eq]
  omega

/-- A mask of whole nibbles keeps the nibbles it names and clears the others. -/
theorem toNat_and_nibbles (op : Word) (a b c d : Bool) :
    (op &&& ((if a then 0xF else 0 : BitVec 4) ++ (if b then 0xF else 0 : BitVec 4) ++
      (if c then 0xF else 0 : BitVec 4) ++ (if d then 0xF else 0 : BitVec 4) : BitVec 16)).toNat =
    (if a then op.toNat / 4096 * 4096 else 0) + (if b then op.toNat / 256 % 16 * 256 else 0) +
      (if c then op.toNat / 16 % 16 * 16 else 0) + (if d then op.toNat % 16 else 0) := by
  have := op.isLt
  have hF : ∀ w : BitVec 4, w &&& 15#4 = w := by decide
  have h0 : ∀ w : BitVec 4, w &&& 0#4 = 0 := by decide
  conv_lhs => rw [word_eq_nibbles op]
  rw [BitVec.and_append, BitVec.and_append, BitVec.and_append]
  cases a <;> cases b <;> cases c <;> cases d <;>
    simp only [Bool.false_eq_true, ↓reduceIte, BitVec.ofNat_eq_ofNat, hF, h0, BitVec.toNat_append,
      BitVec.extractLsb'_toNat, Nat.shiftRight_eq_div_pow] <;>
    (rw [← Nat.shiftLeft_add_eq_or_of_lt (by first | (simp; omega) | simp), ← Nat.shiftLeft_add_eq_or_of_lt (by first | (simp; omega) | simp),
      ← Nat.shiftLeft_add_eq_or_of_lt (by first | (simp; omega) | simp)]) <;>
    simp only [Nat.shiftLeft_eq, BitVec.toNat_ofNat] <;> omega

theorem toNat_and_F000 (op : Word) : (op &&& 0xF000).toNat = op.toNat / 4096 * 4096 := by
  simpa using toNat_and_nibbles op true false false false

theorem toNat_and_F00F (op : Word) : (op &&& 0xF00F).toNat = op.toNat / 4096 * 4096 + op.toNat % 16 := by
  simpa using toNat_and_nibbles op true false false true

theorem toNat_and_F0FF (op : Word) : (op &&& 0xF0FF).toNat = op.toNat / 4096 * 4096 + op.toNat % 256 := by
  have := toNat_and_nibbles op true false true true
  simp only [↓reduceIte, Bool.false_eq_true] at this
  exact this.trans (by omega)

theorem toNat_and_000F (op : Word) : (op &&& 0x000F).toNat = op.toNat % 16 := by
  simpa using toNat_and_nibbles op false false false true

theorem toNat_and_00FF (op : Word) : (op &&& 0x00FF).toNat = op.toNat % 256 := by
  have := toNat_and_nibbles op false false true true
  simp only [↓reduceIte, Bool.false_eq_true] at this
  exact this.trans (by omega)

theorem and_FFFF (op : Word) : op &&& 0xFFFF = op := BitVec.and_allOnes

end Sys2Proof
end

