-- ==== Sys2Proof/Laws/Display.lean ====
section
/-! SUPPORT. What drawing does to one pixel and to the collision flag (spec/44_display.md R200 to R203). -/

namespace Sys2Proof.Machine

@[simp] theorem pixel_togglePixel (fb : Framebuffer) (x px : Fin 64) (y py : Fin 32) :
    pixel (togglePixel fb x y) px py = if px = x ∧ py = y then !pixel fb x y else pixel fb px py := by
  simp only [pixel, togglePixel, Fin.getElem_fin, Vector.getElem_set, Fin.ext_iff]
  by_cases hy : (y : Nat) = py
  · by_cases hx : (x : Nat) = px
    · simp [hx, hy]
    · have : ¬ (px : Nat) = x := fun e => hx e.symm
      simp [hx, hy, this]
  · have : ¬ (py : Nat) = y := fun e => hy e.symm
    simp [hy, this]

@[simp] theorem pixel_blankScreen (x : Fin 64) (y : Fin 32) : pixel blankScreen x y = false := by
  simp [pixel, blankScreen]

/-- Two framebuffers with the same pixels are equal. -/
theorem framebuffer_ext {fb fb' : Framebuffer} (h : ∀ x y, pixel fb x y = pixel fb' x y) : fb = fb' := by
  apply Vector.ext
  intro y hy
  apply Vector.ext
  intro x hx
  exact h ⟨x, hx⟩ ⟨y, hy⟩

/-- A bit of a sprite row lands on the pixel: some column offset below 8 with a 1 bit wraps to it, in that row. -/
def rowCovers (x0 y : Nat) (row : Byte) (px : Fin 64) (py : Fin 32) : Prop :=
  ∃ col, col < 8 ∧ spriteBit row col = true ∧ px = wrapX (x0 + col) ∧ py = wrapY y

/-- The columns of one row, some of them drawn. -/
theorem drawCols_spec (cols : List Nat) (x0 y : Nat) (row : Byte) (c : Canvas)
    (hn : (cols.map fun col => wrapX (x0 + col)).Nodup) :
    let covered := fun px py =>
      ∃ col ∈ cols, spriteBit row col = true ∧ px = wrapX (x0 + col) ∧ py = wrapY y
    let d := cols.foldl (fun c col => drawPixel c (wrapX (x0 + col)) (wrapY y) (spriteBit row col)) c
    (∀ px py, (covered px py → pixel d.1 px py = !pixel c.1 px py) ∧
      (¬ covered px py → pixel d.1 px py = pixel c.1 px py)) ∧
    (d.2 = true ↔ c.2 = true ∨ ∃ px py, covered px py ∧ pixel c.1 px py = true) := by
  induction cols generalizing c with
  | nil => simp
  | cons col rest ih =>
    simp only [List.map_cons, List.nodup_cons, List.mem_map, not_exists, not_and] at hn
    obtain ⟨hnot, hn⟩ := hn
    simp only [List.foldl_cons, List.mem_cons]
    obtain ⟨hp, hc⟩ := ih (drawPixel c (wrapX (x0 + col)) (wrapY y) (spriteBit row col)) hn
    set e := drawPixel c (wrapX (x0 + col)) (wrapY y) (spriteBit row col) with he
    by_cases hb : spriteBit row col = true
    · have he1 : e.1 = togglePixel c.1 (wrapX (x0 + col)) (wrapY y) := by simp [he, drawPixel, hb]
      have he2 : e.2 = (c.2 || pixel c.1 (wrapX (x0 + col)) (wrapY y)) := by simp [he, drawPixel, hb]
      refine ⟨fun px py => ⟨?_, ?_⟩, ?_⟩
      · rintro ⟨col', rfl | hmem, hbit, rfl, rfl⟩
        · rw [(hp _ _).2]
          · simp [he1]
          · rintro ⟨col'', hmem, -, hx, -⟩
            exact hnot col'' hmem hx.symm
        · rw [(hp _ _).1 ⟨col', hmem, hbit, rfl, rfl⟩]
          have : ¬ wrapX (x0 + col') = wrapX (x0 + col) := fun h => hnot col' hmem h
          simp [he1, this]
      · intro hno
        rw [(hp _ _).2]
        · have : ¬ (px = wrapX (x0 + col) ∧ py = wrapY y) := fun h => hno ⟨col, Or.inl rfl, hb, h.1, h.2⟩
          simp [he1, this]
        · rintro ⟨col', hmem, hbit, hx, hy⟩
          exact hno ⟨col', Or.inr hmem, hbit, hx, hy⟩
      · rw [hc, he2, Bool.or_eq_true]
        constructor
        · rintro ((h | h) | ⟨px, py, ⟨col', hmem, hbit, hx, hy⟩, h⟩)
          · exact Or.inl h
          · exact Or.inr ⟨_, _, ⟨col, Or.inl rfl, hb, rfl, rfl⟩, h⟩
          · refine Or.inr ⟨px, py, ⟨col', Or.inr hmem, hbit, hx, hy⟩, ?_⟩
            have : ¬ px = wrapX (x0 + col) := fun h => hnot col' hmem (hx ▸ h)
            simpa [he1, this] using h
        · rintro (h | ⟨px, py, ⟨col', rfl | hmem, hbit, hx, hy⟩, h⟩)
          · exact Or.inl (Or.inl h)
          · subst hx hy
            exact Or.inl (Or.inr h)
          · refine Or.inr ⟨px, py, ⟨col', hmem, hbit, hx, hy⟩, ?_⟩
            have : ¬ px = wrapX (x0 + col) := fun h => hnot col' hmem (hx ▸ h)
            simpa [he1, this] using h
    · have he0 : e = c := by simp [he, drawPixel, hb]
      rw [he0] at hp hc ⊢
      have hcov : ∀ px py, (∃ a, (a = col ∨ a ∈ rest) ∧ spriteBit row a = true ∧ px = wrapX (x0 + a) ∧ py = wrapY y) ↔
          ∃ a ∈ rest, spriteBit row a = true ∧ px = wrapX (x0 + a) ∧ py = wrapY y := by
        intro px py
        constructor
        · rintro ⟨a, rfl | ha, h⟩
          · exact absurd h.1 hb
          · exact ⟨a, ha, h⟩
        · rintro ⟨a, ha, h⟩
          exact ⟨a, Or.inr ha, h⟩
      simp only [hcov]
      exact ⟨hp, hc⟩

/-- All one sprite row can do. -/
theorem drawRow_spec (c : Canvas) (x0 y : Nat) (row : Byte) :
    (∀ px py, (rowCovers x0 y row px py → pixel (drawRow c x0 y row).1 px py = !pixel c.1 px py) ∧
      (¬ rowCovers x0 y row px py → pixel (drawRow c x0 y row).1 px py = pixel c.1 px py)) ∧
    ((drawRow c x0 y row).2 = true ↔ c.2 = true ∨ ∃ px py, rowCovers x0 y row px py ∧ pixel c.1 px py = true) := by
  have hn : ((List.range 8).map fun col => wrapX (x0 + col)).Nodup := by
    refine List.Nodup.map_on (fun a ha b hb h => ?_) List.nodup_range
    simp only [List.mem_range] at ha hb
    simp only [wrapX, Fin.mk.injEq] at h
    omega
  have := drawCols_spec (List.range 8) x0 y row c hn
  simpa only [rowCovers, List.mem_range, drawRow] using this

/-- The pixel is one the rows cover, the first in row `y`. -/
def rowsCover (x0 y : Nat) (rows : List Byte) (px : Fin 64) (py : Fin 32) : Prop :=
  ∃ r, ∃ h : r < rows.length, rowCovers x0 (y + r) rows[r] px py

theorem rowsCover_cons (x0 y : Nat) (row : Byte) (rest : List Byte) (px : Fin 64) (py : Fin 32) :
    rowsCover x0 y (row :: rest) px py ↔ rowCovers x0 y row px py ∨ rowsCover x0 (y + 1) rest px py := by
  constructor
  · rintro ⟨r, h, hr⟩
    cases r with
    | zero => exact Or.inl hr
    | succ r =>
      refine Or.inr ⟨r, by simpa using h, ?_⟩
      have e : y + (r + 1) = y + 1 + r := by omega
      rw [e] at hr
      simpa using hr
  · rintro (h | ⟨r, h, hr⟩)
    · exact ⟨0, by simp, h⟩
    · refine ⟨r + 1, by simpa using h, ?_⟩
      have e : y + (r + 1) = y + 1 + r := by omega
      rw [e]
      simpa using hr

/-- All the rows of a sprite can do: no pixel is covered by two of at most 32 rows, so each covered pixel flips once and the
flag is set exactly when a covered pixel was on. -/
theorem drawRows_spec (c : Canvas) (x0 y : Nat) (rows : List Byte) (hlen : rows.length ≤ 32) :
    (∀ px py, (rowsCover x0 y rows px py → pixel (drawRows c x0 y rows).1 px py = !pixel c.1 px py) ∧
      (¬ rowsCover x0 y rows px py → pixel (drawRows c x0 y rows).1 px py = pixel c.1 px py)) ∧
    ((drawRows c x0 y rows).2 = true ↔ c.2 = true ∨ ∃ px py, rowsCover x0 y rows px py ∧ pixel c.1 px py = true) := by
  induction rows generalizing c y with
  | nil => simp [drawRows, rowsCover]
  | cons row rest ih =>
    simp only [List.length_cons] at hlen
    obtain ⟨hp, hc⟩ := ih (drawRow c x0 y row) (y + 1) (by omega)
    obtain ⟨rp, rc⟩ := drawRow_spec c x0 y row
    have hdisj : ∀ px py, rowCovers x0 y row px py → ¬ rowsCover x0 (y + 1) rest px py := by
      rintro px py ⟨col, -, -, -, hy⟩ ⟨r, hr, col', -, -, -, hy'⟩
      rw [hy] at hy'
      simp only [wrapY, Fin.mk.injEq] at hy'
      omega
    simp only [drawRows, rowsCover_cons]
    refine ⟨fun px py => ⟨?_, ?_⟩, ?_⟩
    · rintro (h | h)
      · rw [(hp px py).2 (hdisj px py h), (rp px py).1 h]
      · rw [(hp px py).1 h, (rp px py).2 fun h' => hdisj px py h' h]
    · intro h
      rw [(hp px py).2 fun h' => h (Or.inr h'), (rp px py).2 fun h' => h (Or.inl h')]
    · rw [hc, rc]
      constructor
      · rintro ((h | ⟨px, py, h, hpx⟩) | ⟨px, py, h, hpx⟩)
        · exact Or.inl h
        · exact Or.inr ⟨px, py, Or.inl h, hpx⟩
        · exact Or.inr ⟨px, py, Or.inr h, by rwa [(rp px py).2 fun h' => hdisj px py h' h] at hpx⟩
      · rintro (h | ⟨px, py, h | h, hpx⟩)
        · exact Or.inl (Or.inl h)
        · exact Or.inl (Or.inr ⟨px, py, h, hpx⟩)
        · exact Or.inr ⟨px, py, h, by rwa [(rp px py).2 fun h' => hdisj px py h' h]⟩

end Sys2Proof.Machine
end

