-- ==== Sys2Proof/Laws/State.lean ====
section
/-! SUPPORT. One lemma per field per update of the state, true by rfl, and the register-file laws. -/

namespace Sys2Proof.Machine

section
variable (s : State)

/-! ### setReg -/

@[simp] theorem State.setReg_mem (r : Reg) (b : Byte) : (s.setReg r b).mem = s.mem := rfl
@[simp] theorem State.setReg_V (r : Reg) (b : Byte) : (s.setReg r b).V = s.V.set r b := rfl
@[simp] theorem State.setReg_I (r : Reg) (b : Byte) : (s.setReg r b).I = s.I := rfl
@[simp] theorem State.setReg_pc (r : Reg) (b : Byte) : (s.setReg r b).pc = s.pc := rfl
@[simp] theorem State.setReg_stack (r : Reg) (b : Byte) : (s.setReg r b).stack = s.stack := rfl
@[simp] theorem State.setReg_sp (r : Reg) (b : Byte) : (s.setReg r b).sp = s.sp := rfl
@[simp] theorem State.setReg_DT (r : Reg) (b : Byte) : (s.setReg r b).DT = s.DT := rfl
@[simp] theorem State.setReg_ST (r : Reg) (b : Byte) : (s.setReg r b).ST = s.ST := rfl
@[simp] theorem State.setReg_fb (r : Reg) (b : Byte) : (s.setReg r b).fb = s.fb := rfl
@[simp] theorem State.setReg_key (r : Reg) (b : Byte) : (s.setReg r b).key = s.key := rfl
@[simp] theorem State.setReg_waitKey (r : Reg) (b : Byte) : (s.setReg r b).waitKey = s.waitKey := rfl
@[simp] theorem State.setReg_dirty (r : Reg) (b : Byte) : (s.setReg r b).dirty = s.dirty := rfl
@[simp] theorem State.setReg_fault (r : Reg) (b : Byte) : (s.setReg r b).fault = s.fault := rfl
@[simp] theorem State.setReg_toneEnd (r : Reg) (b : Byte) : (s.setReg r b).toneEnd = s.toneEnd := rfl
@[simp] theorem State.setReg_diag (r : Reg) (b : Byte) : (s.setReg r b).diag = s.diag := rfl
@[simp] theorem State.setReg_draws (r : Reg) (b : Byte) : (s.setReg r b).draws = s.draws := rfl

/-! ### setPc -/

@[simp] theorem State.setPc_mem (w : Word) : (s.setPc w).mem = s.mem := rfl
@[simp] theorem State.setPc_V (w : Word) : (s.setPc w).V = s.V := rfl
@[simp] theorem State.setPc_I (w : Word) : (s.setPc w).I = s.I := rfl
@[simp] theorem State.setPc_pc (w : Word) : (s.setPc w).pc = w := rfl
@[simp] theorem State.setPc_stack (w : Word) : (s.setPc w).stack = s.stack := rfl
@[simp] theorem State.setPc_sp (w : Word) : (s.setPc w).sp = s.sp := rfl
@[simp] theorem State.setPc_DT (w : Word) : (s.setPc w).DT = s.DT := rfl
@[simp] theorem State.setPc_ST (w : Word) : (s.setPc w).ST = s.ST := rfl
@[simp] theorem State.setPc_fb (w : Word) : (s.setPc w).fb = s.fb := rfl
@[simp] theorem State.setPc_key (w : Word) : (s.setPc w).key = s.key := rfl
@[simp] theorem State.setPc_waitKey (w : Word) : (s.setPc w).waitKey = s.waitKey := rfl
@[simp] theorem State.setPc_dirty (w : Word) : (s.setPc w).dirty = s.dirty := rfl
@[simp] theorem State.setPc_fault (w : Word) : (s.setPc w).fault = s.fault := rfl
@[simp] theorem State.setPc_toneEnd (w : Word) : (s.setPc w).toneEnd = s.toneEnd := rfl
@[simp] theorem State.setPc_diag (w : Word) : (s.setPc w).diag = s.diag := rfl
@[simp] theorem State.setPc_draws (w : Word) : (s.setPc w).draws = s.draws := rfl

/-! ### nextPc -/

@[simp] theorem State.nextPc_mem : s.nextPc.mem = s.mem := rfl
@[simp] theorem State.nextPc_V : s.nextPc.V = s.V := rfl
@[simp] theorem State.nextPc_I : s.nextPc.I = s.I := rfl
@[simp] theorem State.nextPc_pc : s.nextPc.pc = s.pc + 2 := rfl
@[simp] theorem State.nextPc_stack : s.nextPc.stack = s.stack := rfl
@[simp] theorem State.nextPc_sp : s.nextPc.sp = s.sp := rfl
@[simp] theorem State.nextPc_DT : s.nextPc.DT = s.DT := rfl
@[simp] theorem State.nextPc_ST : s.nextPc.ST = s.ST := rfl
@[simp] theorem State.nextPc_fb : s.nextPc.fb = s.fb := rfl
@[simp] theorem State.nextPc_key : s.nextPc.key = s.key := rfl
@[simp] theorem State.nextPc_waitKey : s.nextPc.waitKey = s.waitKey := rfl
@[simp] theorem State.nextPc_dirty : s.nextPc.dirty = s.dirty := rfl
@[simp] theorem State.nextPc_fault : s.nextPc.fault = s.fault := rfl
@[simp] theorem State.nextPc_toneEnd : s.nextPc.toneEnd = s.toneEnd := rfl
@[simp] theorem State.nextPc_diag : s.nextPc.diag = s.diag := rfl
@[simp] theorem State.nextPc_draws : s.nextPc.draws = s.draws := rfl

/-! ### skipIf -/

@[simp] theorem State.skipIf_mem (c : Bool) : (s.skipIf c).mem = s.mem := rfl
@[simp] theorem State.skipIf_V (c : Bool) : (s.skipIf c).V = s.V := rfl
@[simp] theorem State.skipIf_I (c : Bool) : (s.skipIf c).I = s.I := rfl
@[simp] theorem State.skipIf_pc (c : Bool) : (s.skipIf c).pc = if c then s.pc + 4 else s.pc + 2 := rfl
@[simp] theorem State.skipIf_stack (c : Bool) : (s.skipIf c).stack = s.stack := rfl
@[simp] theorem State.skipIf_sp (c : Bool) : (s.skipIf c).sp = s.sp := rfl
@[simp] theorem State.skipIf_DT (c : Bool) : (s.skipIf c).DT = s.DT := rfl
@[simp] theorem State.skipIf_ST (c : Bool) : (s.skipIf c).ST = s.ST := rfl
@[simp] theorem State.skipIf_fb (c : Bool) : (s.skipIf c).fb = s.fb := rfl
@[simp] theorem State.skipIf_key (c : Bool) : (s.skipIf c).key = s.key := rfl
@[simp] theorem State.skipIf_waitKey (c : Bool) : (s.skipIf c).waitKey = s.waitKey := rfl
@[simp] theorem State.skipIf_dirty (c : Bool) : (s.skipIf c).dirty = s.dirty := rfl
@[simp] theorem State.skipIf_fault (c : Bool) : (s.skipIf c).fault = s.fault := rfl
@[simp] theorem State.skipIf_toneEnd (c : Bool) : (s.skipIf c).toneEnd = s.toneEnd := rfl
@[simp] theorem State.skipIf_diag (c : Bool) : (s.skipIf c).diag = s.diag := rfl
@[simp] theorem State.skipIf_draws (c : Bool) : (s.skipIf c).draws = s.draws := rfl

/-! ### setIndex -/

@[simp] theorem State.setIndex_mem (w : Word) : (s.setIndex w).mem = s.mem := rfl
@[simp] theorem State.setIndex_V (w : Word) : (s.setIndex w).V = s.V := rfl
@[simp] theorem State.setIndex_I (w : Word) : (s.setIndex w).I = w := rfl
@[simp] theorem State.setIndex_pc (w : Word) : (s.setIndex w).pc = s.pc + 2 := rfl
@[simp] theorem State.setIndex_stack (w : Word) : (s.setIndex w).stack = s.stack := rfl
@[simp] theorem State.setIndex_sp (w : Word) : (s.setIndex w).sp = s.sp := rfl
@[simp] theorem State.setIndex_DT (w : Word) : (s.setIndex w).DT = s.DT := rfl
@[simp] theorem State.setIndex_ST (w : Word) : (s.setIndex w).ST = s.ST := rfl
@[simp] theorem State.setIndex_fb (w : Word) : (s.setIndex w).fb = s.fb := rfl
@[simp] theorem State.setIndex_key (w : Word) : (s.setIndex w).key = s.key := rfl
@[simp] theorem State.setIndex_waitKey (w : Word) : (s.setIndex w).waitKey = s.waitKey := rfl
@[simp] theorem State.setIndex_dirty (w : Word) : (s.setIndex w).dirty = s.dirty := rfl
@[simp] theorem State.setIndex_fault (w : Word) : (s.setIndex w).fault = s.fault := rfl
@[simp] theorem State.setIndex_toneEnd (w : Word) : (s.setIndex w).toneEnd = s.toneEnd := rfl
@[simp] theorem State.setIndex_diag (w : Word) : (s.setIndex w).diag = s.diag := rfl
@[simp] theorem State.setIndex_draws (w : Word) : (s.setIndex w).draws = s.draws := rfl

/-! ### clearOutputs -/

@[simp] theorem State.clearOutputs_mem : s.clearOutputs.mem = s.mem := rfl
@[simp] theorem State.clearOutputs_V : s.clearOutputs.V = s.V := rfl
@[simp] theorem State.clearOutputs_I : s.clearOutputs.I = s.I := rfl
@[simp] theorem State.clearOutputs_pc : s.clearOutputs.pc = s.pc := rfl
@[simp] theorem State.clearOutputs_stack : s.clearOutputs.stack = s.stack := rfl
@[simp] theorem State.clearOutputs_sp : s.clearOutputs.sp = s.sp := rfl
@[simp] theorem State.clearOutputs_DT : s.clearOutputs.DT = s.DT := rfl
@[simp] theorem State.clearOutputs_ST : s.clearOutputs.ST = s.ST := rfl
@[simp] theorem State.clearOutputs_fb : s.clearOutputs.fb = s.fb := rfl
@[simp] theorem State.clearOutputs_key : s.clearOutputs.key = s.key := rfl
@[simp] theorem State.clearOutputs_waitKey : s.clearOutputs.waitKey = s.waitKey := rfl
@[simp] theorem State.clearOutputs_dirty : s.clearOutputs.dirty = s.dirty := rfl
@[simp] theorem State.clearOutputs_fault : s.clearOutputs.fault = s.fault := rfl
@[simp] theorem State.clearOutputs_toneEnd : s.clearOutputs.toneEnd = false := rfl
@[simp] theorem State.clearOutputs_diag : s.clearOutputs.diag = none := rfl
@[simp] theorem State.clearOutputs_draws : s.clearOutputs.draws = s.draws := rfl

/-! ### takeFault -/

@[simp] theorem State.takeFault_mem (op : Option Word) (e : Raise) : (s.takeFault op e).mem = s.mem := rfl
@[simp] theorem State.takeFault_V (op : Option Word) (e : Raise) : (s.takeFault op e).V = s.V := rfl
@[simp] theorem State.takeFault_I (op : Option Word) (e : Raise) : (s.takeFault op e).I = s.I := rfl
@[simp] theorem State.takeFault_pc (op : Option Word) (e : Raise) : (s.takeFault op e).pc = s.pc := rfl
@[simp] theorem State.takeFault_stack (op : Option Word) (e : Raise) : (s.takeFault op e).stack = s.stack := rfl
@[simp] theorem State.takeFault_sp (op : Option Word) (e : Raise) : (s.takeFault op e).sp = s.sp := rfl
@[simp] theorem State.takeFault_DT (op : Option Word) (e : Raise) : (s.takeFault op e).DT = s.DT := rfl
@[simp] theorem State.takeFault_ST (op : Option Word) (e : Raise) : (s.takeFault op e).ST = s.ST := rfl
@[simp] theorem State.takeFault_fb (op : Option Word) (e : Raise) : (s.takeFault op e).fb = s.fb := rfl
@[simp] theorem State.takeFault_key (op : Option Word) (e : Raise) : (s.takeFault op e).key = s.key := rfl
@[simp] theorem State.takeFault_waitKey (op : Option Word) (e : Raise) : (s.takeFault op e).waitKey = s.waitKey := rfl
@[simp] theorem State.takeFault_dirty (op : Option Word) (e : Raise) : (s.takeFault op e).dirty = s.dirty := rfl
@[simp] theorem State.takeFault_fault (op : Option Word) (e : Raise) : (s.takeFault op e).fault = some { cause := e.cause, pc := s.pc, opcode := op, detail := e.detail } := rfl
@[simp] theorem State.takeFault_toneEnd (op : Option Word) (e : Raise) : (s.takeFault op e).toneEnd = false := rfl
@[simp] theorem State.takeFault_diag (op : Option Word) (e : Raise) : (s.takeFault op e).diag = none := rfl
@[simp] theorem State.takeFault_draws (op : Option Word) (e : Raise) : (s.takeFault op e).draws = s.draws := rfl

/-! ### timerUpdate -/

@[simp] theorem State.timerUpdate_mem : s.timerUpdate.mem = s.mem := rfl
@[simp] theorem State.timerUpdate_V : s.timerUpdate.V = s.V := rfl
@[simp] theorem State.timerUpdate_I : s.timerUpdate.I = s.I := rfl
@[simp] theorem State.timerUpdate_pc : s.timerUpdate.pc = s.pc := rfl
@[simp] theorem State.timerUpdate_stack : s.timerUpdate.stack = s.stack := rfl
@[simp] theorem State.timerUpdate_sp : s.timerUpdate.sp = s.sp := rfl
@[simp] theorem State.timerUpdate_DT : s.timerUpdate.DT = countdown s.DT := rfl
@[simp] theorem State.timerUpdate_ST : s.timerUpdate.ST = countdown s.ST := rfl
@[simp] theorem State.timerUpdate_fb : s.timerUpdate.fb = s.fb := rfl
@[simp] theorem State.timerUpdate_key : s.timerUpdate.key = s.key := rfl
@[simp] theorem State.timerUpdate_waitKey : s.timerUpdate.waitKey = s.waitKey := rfl
@[simp] theorem State.timerUpdate_dirty : s.timerUpdate.dirty = s.dirty := rfl
@[simp] theorem State.timerUpdate_fault : s.timerUpdate.fault = s.fault := rfl
@[simp] theorem State.timerUpdate_toneEnd : s.timerUpdate.toneEnd = if s.ST = 1 then true else s.toneEnd := rfl
@[simp] theorem State.timerUpdate_diag : s.timerUpdate.diag = s.diag := rfl
@[simp] theorem State.timerUpdate_draws : s.timerUpdate.draws = s.draws := rfl

/-! ### reportUnknown -/

@[simp] theorem State.reportUnknown_mem (op : Word) : (s.reportUnknown op).mem = s.mem := rfl
@[simp] theorem State.reportUnknown_V (op : Word) : (s.reportUnknown op).V = s.V := rfl
@[simp] theorem State.reportUnknown_I (op : Word) : (s.reportUnknown op).I = s.I := rfl
@[simp] theorem State.reportUnknown_pc (op : Word) : (s.reportUnknown op).pc = s.pc + 2 := rfl
@[simp] theorem State.reportUnknown_stack (op : Word) : (s.reportUnknown op).stack = s.stack := rfl
@[simp] theorem State.reportUnknown_sp (op : Word) : (s.reportUnknown op).sp = s.sp := rfl
@[simp] theorem State.reportUnknown_DT (op : Word) : (s.reportUnknown op).DT = s.DT := rfl
@[simp] theorem State.reportUnknown_ST (op : Word) : (s.reportUnknown op).ST = s.ST := rfl
@[simp] theorem State.reportUnknown_fb (op : Word) : (s.reportUnknown op).fb = s.fb := rfl
@[simp] theorem State.reportUnknown_key (op : Word) : (s.reportUnknown op).key = s.key := rfl
@[simp] theorem State.reportUnknown_waitKey (op : Word) : (s.reportUnknown op).waitKey = s.waitKey := rfl
@[simp] theorem State.reportUnknown_dirty (op : Word) : (s.reportUnknown op).dirty = s.dirty := rfl
@[simp] theorem State.reportUnknown_fault (op : Word) : (s.reportUnknown op).fault = s.fault := rfl
@[simp] theorem State.reportUnknown_toneEnd (op : Word) : (s.reportUnknown op).toneEnd = s.toneEnd := rfl
@[simp] theorem State.reportUnknown_diag (op : Word) : (s.reportUnknown op).diag = some { rawOpcode := op, programCounter := s.pc } := rfl
@[simp] theorem State.reportUnknown_draws (op : Word) : (s.reportUnknown op).draws = s.draws := rfl

/-! ### resolveWait -/

@[simp] theorem State.resolveWait_mem (x : Reg) (k : Fin 16) : (s.resolveWait x k).mem = s.mem := rfl
@[simp] theorem State.resolveWait_V (x : Reg) (k : Fin 16) : (s.resolveWait x k).V = s.V.set x (BitVec.ofNat 8 k.val) := rfl
@[simp] theorem State.resolveWait_I (x : Reg) (k : Fin 16) : (s.resolveWait x k).I = s.I := rfl
@[simp] theorem State.resolveWait_pc (x : Reg) (k : Fin 16) : (s.resolveWait x k).pc = s.pc + 2 := rfl
@[simp] theorem State.resolveWait_stack (x : Reg) (k : Fin 16) : (s.resolveWait x k).stack = s.stack := rfl
@[simp] theorem State.resolveWait_sp (x : Reg) (k : Fin 16) : (s.resolveWait x k).sp = s.sp := rfl
@[simp] theorem State.resolveWait_DT (x : Reg) (k : Fin 16) : (s.resolveWait x k).DT = s.DT := rfl
@[simp] theorem State.resolveWait_ST (x : Reg) (k : Fin 16) : (s.resolveWait x k).ST = s.ST := rfl
@[simp] theorem State.resolveWait_fb (x : Reg) (k : Fin 16) : (s.resolveWait x k).fb = s.fb := rfl
@[simp] theorem State.resolveWait_key (x : Reg) (k : Fin 16) : (s.resolveWait x k).key = s.key := rfl
@[simp] theorem State.resolveWait_waitKey (x : Reg) (k : Fin 16) : (s.resolveWait x k).waitKey = none := rfl
@[simp] theorem State.resolveWait_dirty (x : Reg) (k : Fin 16) : (s.resolveWait x k).dirty = s.dirty := rfl
@[simp] theorem State.resolveWait_fault (x : Reg) (k : Fin 16) : (s.resolveWait x k).fault = s.fault := rfl
@[simp] theorem State.resolveWait_toneEnd (x : Reg) (k : Fin 16) : (s.resolveWait x k).toneEnd = s.toneEnd := rfl
@[simp] theorem State.resolveWait_diag (x : Reg) (k : Fin 16) : (s.resolveWait x k).diag = s.diag := rfl
@[simp] theorem State.resolveWait_draws (x : Reg) (k : Fin 16) : (s.resolveWait x k).draws = s.draws := rfl

/-! ### badFetch -/

@[simp] theorem State.badFetch_mem : s.badFetch.mem = s.mem := rfl
@[simp] theorem State.badFetch_V : s.badFetch.V = s.V := rfl
@[simp] theorem State.badFetch_I : s.badFetch.I = s.I := rfl
@[simp] theorem State.badFetch_pc : s.badFetch.pc = s.pc := rfl
@[simp] theorem State.badFetch_stack : s.badFetch.stack = s.stack := rfl
@[simp] theorem State.badFetch_sp : s.badFetch.sp = s.sp := rfl
@[simp] theorem State.badFetch_DT : s.badFetch.DT = s.DT := rfl
@[simp] theorem State.badFetch_ST : s.badFetch.ST = s.ST := rfl
@[simp] theorem State.badFetch_fb : s.badFetch.fb = s.fb := rfl
@[simp] theorem State.badFetch_key : s.badFetch.key = s.key := rfl
@[simp] theorem State.badFetch_waitKey : s.badFetch.waitKey = s.waitKey := rfl
@[simp] theorem State.badFetch_dirty : s.badFetch.dirty = s.dirty := rfl
@[simp] theorem State.badFetch_fault : s.badFetch.fault = some { cause := .pcOutOfRange, pc := s.pc, opcode := none, detail := none } := rfl
@[simp] theorem State.badFetch_toneEnd : s.badFetch.toneEnd = false := rfl
@[simp] theorem State.badFetch_diag : s.badFetch.diag = none := rfl
@[simp] theorem State.badFetch_draws : s.badFetch.draws = s.draws := rfl

/-! ### writeFlagged -/

@[simp] theorem State.writeFlagged_mem (x : Reg) (flag result : Byte) : (s.writeFlagged x flag result).mem = s.mem := rfl
@[simp] theorem State.writeFlagged_V (x : Reg) (flag result : Byte) : (s.writeFlagged x flag result).V = (s.V.set VF flag).set x result := rfl
@[simp] theorem State.writeFlagged_I (x : Reg) (flag result : Byte) : (s.writeFlagged x flag result).I = s.I := rfl
@[simp] theorem State.writeFlagged_pc (x : Reg) (flag result : Byte) : (s.writeFlagged x flag result).pc = s.pc := rfl
@[simp] theorem State.writeFlagged_stack (x : Reg) (flag result : Byte) : (s.writeFlagged x flag result).stack = s.stack := rfl
@[simp] theorem State.writeFlagged_sp (x : Reg) (flag result : Byte) : (s.writeFlagged x flag result).sp = s.sp := rfl
@[simp] theorem State.writeFlagged_DT (x : Reg) (flag result : Byte) : (s.writeFlagged x flag result).DT = s.DT := rfl
@[simp] theorem State.writeFlagged_ST (x : Reg) (flag result : Byte) : (s.writeFlagged x flag result).ST = s.ST := rfl
@[simp] theorem State.writeFlagged_fb (x : Reg) (flag result : Byte) : (s.writeFlagged x flag result).fb = s.fb := rfl
@[simp] theorem State.writeFlagged_key (x : Reg) (flag result : Byte) : (s.writeFlagged x flag result).key = s.key := rfl
@[simp] theorem State.writeFlagged_waitKey (x : Reg) (flag result : Byte) : (s.writeFlagged x flag result).waitKey = s.waitKey := rfl
@[simp] theorem State.writeFlagged_dirty (x : Reg) (flag result : Byte) : (s.writeFlagged x flag result).dirty = s.dirty := rfl
@[simp] theorem State.writeFlagged_fault (x : Reg) (flag result : Byte) : (s.writeFlagged x flag result).fault = s.fault := rfl
@[simp] theorem State.writeFlagged_toneEnd (x : Reg) (flag result : Byte) : (s.writeFlagged x flag result).toneEnd = s.toneEnd := rfl
@[simp] theorem State.writeFlagged_diag (x : Reg) (flag result : Byte) : (s.writeFlagged x flag result).diag = s.diag := rfl
@[simp] theorem State.writeFlagged_draws (x : Reg) (flag result : Byte) : (s.writeFlagged x flag result).draws = s.draws := rfl

/-! ### drawByte -/

@[simp] theorem State.drawByte_mem : s.drawByte.2.mem = s.mem := rfl
@[simp] theorem State.drawByte_V : s.drawByte.2.V = s.V := rfl
@[simp] theorem State.drawByte_I : s.drawByte.2.I = s.I := rfl
@[simp] theorem State.drawByte_pc : s.drawByte.2.pc = s.pc := rfl
@[simp] theorem State.drawByte_stack : s.drawByte.2.stack = s.stack := rfl
@[simp] theorem State.drawByte_sp : s.drawByte.2.sp = s.sp := rfl
@[simp] theorem State.drawByte_DT : s.drawByte.2.DT = s.DT := rfl
@[simp] theorem State.drawByte_ST : s.drawByte.2.ST = s.ST := rfl
@[simp] theorem State.drawByte_fb : s.drawByte.2.fb = s.fb := rfl
@[simp] theorem State.drawByte_key : s.drawByte.2.key = s.key := rfl
@[simp] theorem State.drawByte_waitKey : s.drawByte.2.waitKey = s.waitKey := rfl
@[simp] theorem State.drawByte_dirty : s.drawByte.2.dirty = s.dirty := rfl
@[simp] theorem State.drawByte_fault : s.drawByte.2.fault = s.fault := rfl
@[simp] theorem State.drawByte_toneEnd : s.drawByte.2.toneEnd = s.toneEnd := rfl
@[simp] theorem State.drawByte_diag : s.drawByte.2.diag = s.diag := rfl
@[simp] theorem State.drawByte_draws : s.drawByte.2.draws = s.draws + 1 := rfl

end

/-! ### Registers -/

@[simp] theorem State.reg_setReg (s : State) (r q : Reg) (b : Byte) :
    (s.setReg r b).reg q = if q = r then b else s.reg q := by
  simp only [State.reg, State.setReg, Fin.getElem_fin, Vector.getElem_set, Fin.ext_iff, eq_comm]

/-- Reading a register looks at the register file only. -/
theorem State.reg_congr {s t : State} (h : t.V = s.V) (r : Reg) : t.reg r = s.reg r := by
  simp only [State.reg, h]

@[simp] theorem State.reg_nextPc (s : State) (r : Reg) : s.nextPc.reg r = s.reg r := rfl

@[simp] theorem State.reg_skipIf (s : State) (c : Bool) (r : Reg) : (s.skipIf c).reg r = s.reg r := rfl

/-- The flag-setting write order: V[X] last (R150). -/
theorem State.reg_writeFlagged (s : State) (x q : Reg) (flag result : Byte) :
    (s.writeFlagged x flag result).reg q = if q = x then result else if q = VF then flag else s.reg q := by
  simp only [State.writeFlagged, State.reg_setReg]

end Sys2Proof.Machine
end

