-- ==== Sys2Proof/Laws/Memory.lean ====
section
/-! SUPPORT. Memory laws: read after write, the canonical form, and one lemma for each range access saying all it can do
(spec/20_memory.md R55 to R57, R64). -/

namespace Sys2Proof.Machine

/-! ### The list of cells -/

theorem lookupCell_insertCell (cells : List Host.Cell) (a b : Nat) (v : Byte) :
    lookupCell (insertCell a v cells) b = if b = a then some v else lookupCell cells b := by
  induction cells with
  | nil => grind [insertCell, lookupCell]
  | cons c rest ih => grind [insertCell, lookupCell]

theorem lookupCell_eraseCell (cells : List Host.Cell) (a b : Nat) :
    lookupCell (eraseCell a cells) b = if b = a then none else lookupCell cells b := by
  induction cells with
  | nil => grind [eraseCell, lookupCell]
  | cons c rest ih => grind [eraseCell, lookupCell]

/-! ### Read and write -/

@[simp] theorem Memory.font_write (m : Memory) (a : Nat) (v : Byte) : (m.write a v).font = m.font := rfl

@[simp] theorem Memory.unlisted_write (m : Memory) (a b : Nat) (v : Byte) :
    (m.write a v).unlisted b = m.unlisted b := rfl

theorem Memory.unlisted_of_le (m : Memory) {a : Nat} (h : 0x50 ≤ a) : m.unlisted a = 0 :=
  dif_neg (by simpa using h)

theorem Memory.read_write (m : Memory) (a b : Nat) (v : Byte) :
    (m.write a v).read b = if b = a then v else m.read b := by
  simp only [Memory.read, Memory.unlisted_write]
  by_cases hv : v = m.unlisted a
  · simp only [Memory.write, hv, ↓reduceIte, lookupCell_eraseCell]
    by_cases h : b = a <;> simp [h]
  · simp only [Memory.write, hv, ↓reduceIte, lookupCell_insertCell]
    by_cases h : b = a <;> simp [h]

/-! ### Canonical form -/

theorem Memory.cellsOk_insertCell (m : Memory) {a : Nat} {v : Byte} (cells : List Host.Cell) {lo : Nat}
    (h : m.cellsOk lo cells = true) (hlo : lo ≤ a) (ha : a < 4096) (hv : v ≠ m.unlisted a) :
    m.cellsOk lo (insertCell a v cells) = true := by
  induction cells generalizing lo with
  | nil => simp [insertCell, Memory.cellsOk, hlo, ha, hv]
  | cons c rest ih =>
    obtain ⟨c, w⟩ := c
    simp only [Memory.cellsOk, Bool.and_eq_true, decide_eq_true_eq, bne_iff_ne] at h
    obtain ⟨⟨⟨hc, hc'⟩, hw⟩, hr⟩ := h
    simp only [insertCell]
    split
    · next h => simp [Memory.cellsOk, hlo, ha, hv, hw, hr]; omega
    · split
      · next h => subst h; simp [Memory.cellsOk, hlo, ha, hv, hr]
      · next h1 h2 => simp [Memory.cellsOk, hc, hw, ih hr (by omega : c + 1 ≤ a)]; omega

theorem Memory.cellsOk_mono (m : Memory) {lo lo' : Nat} (cells : List Host.Cell) (h : m.cellsOk lo cells = true)
    (hlo : lo' ≤ lo) : m.cellsOk lo' cells = true := by
  cases cells with
  | nil => rfl
  | cons c rest =>
    simp only [Memory.cellsOk, Bool.and_eq_true, decide_eq_true_eq] at h ⊢
    exact ⟨⟨⟨le_trans hlo h.1.1.1, h.1.1.2⟩, h.1.2⟩, h.2⟩

theorem Memory.cellsOk_eraseCell (m : Memory) {a lo : Nat} (cells : List Host.Cell)
    (h : m.cellsOk lo cells = true) : m.cellsOk lo (eraseCell a cells) = true := by
  induction cells generalizing lo with
  | nil => rfl
  | cons c rest ih =>
    obtain ⟨c, w⟩ := c
    simp only [Memory.cellsOk, Bool.and_eq_true, decide_eq_true_eq] at h
    simp only [eraseCell]
    split
    · exact m.cellsOk_mono _ (ih h.2) (by omega)
    · simp only [Memory.cellsOk, Bool.and_eq_true, decide_eq_true_eq]
      exact ⟨h.1, ih h.2⟩

/-- The check depends on FONT only. -/
theorem Memory.cellsOk_congr {m m' : Memory} (h : m'.font = m.font) (lo : Nat) (cells : List Host.Cell) :
    m'.cellsOk lo cells = m.cellsOk lo cells := by
  have hu : m'.unlisted = m.unlisted := by funext a; simp only [Memory.unlisted, h]
  induction cells generalizing lo with
  | nil => rfl
  | cons c rest ih => simp only [Memory.cellsOk, hu, ih]

theorem Memory.wf_write (m : Memory) {a : Nat} {v : Byte} (h : m.wf = true) (hlo : 0x50 ≤ a) (ha : a < 4096) :
    (m.write a v).wf = true := by
  have hf : (m.write a v).font = m.font := rfl
  rw [Memory.wf, Memory.cellsOk_congr hf]
  simp only [Memory.write]
  split
  · exact m.cellsOk_eraseCell _ h
  · next hv => exact m.cellsOk_insertCell _ h hlo ha hv

/-- In canonical form nothing is listed below the lower bound. -/
theorem Memory.lookupCell_of_lt (m : Memory) {lo a : Nat} (cells : List Host.Cell) (h : m.cellsOk lo cells = true)
    (ha : a < lo) : lookupCell cells a = none := by
  induction cells generalizing lo with
  | nil => rfl
  | cons c rest ih =>
    obtain ⟨c, w⟩ := c
    simp only [Memory.cellsOk, Bool.and_eq_true, decide_eq_true_eq] at h
    have : c ≠ a := by omega
    simp only [lookupCell, this, ↓reduceIte]
    exact ih h.2 (by omega)

/-- In canonical form the font region reads as FONT. -/
theorem Memory.read_font (m : Memory) (h : m.wf = true) {a : Nat} (ha : a < 80) : m.read a = m.font[a] := by
  rw [Memory.read, m.lookupCell_of_lt _ h ha, Option.getD_none, Memory.unlisted, dif_pos ha]

/-! ### Several bytes at once -/

@[simp] theorem Memory.font_writeAll (m : Memory) (a : Nat) (bytes : List Byte) :
    (m.writeAll a bytes).font = m.font := by
  induction bytes generalizing m a with
  | nil => rfl
  | cons b rest ih => rw [Memory.writeAll, ih, Memory.font_write]

theorem Memory.read_writeAll (m : Memory) (a b : Nat) (bytes : List Byte) :
    (m.writeAll a bytes).read b =
      if h : a ≤ b ∧ b - a < bytes.length then bytes[b - a] else m.read b := by
  induction bytes generalizing m a with
  | nil => simp [Memory.writeAll]
  | cons v rest ih =>
    rw [Memory.writeAll, ih, Memory.read_write]
    by_cases h : b = a
    · subst h; simp
    · by_cases h' : a + 1 ≤ b ∧ b - (a + 1) < rest.length
      · have h2 : a ≤ b ∧ b - a < (v :: rest).length := by simp; omega
        have e : b - a = (b - (a + 1)) + 1 := by omega
        simp only [h', h2, and_self, ↓reduceDIte]
        simp [e]
      · have h2 : ¬ (a ≤ b ∧ b - a < (v :: rest).length) := by simp; omega
        simp only [h', h2, h, ↓reduceDIte, ↓reduceIte]

theorem Memory.wf_writeAll (m : Memory) {a : Nat} {bytes : List Byte} (h : m.wf = true) (hlo : 0x50 ≤ a)
    (ha : a + bytes.length ≤ 4096) : (m.writeAll a bytes).wf = true := by
  induction bytes generalizing m a with
  | nil => exact h
  | cons b rest ih =>
    simp only [List.length_cons] at ha
    exact ih (m.write a b) (m.wf_write h hlo (by omega)) (by omega) (by omega)

/-! ### Checked accesses -/

/-- All a checked range read can do: the bytes of the range, or AddressOutOfRange with the first address of 4096 or
more. -/
theorem memReadRange_eq (m : Memory) (a n : Nat) :
    memReadRange m a n =
      if n = 0 ∨ a + n ≤ 4096 then .ok ((List.range n).map fun k => m.read (a + k))
      else .error { cause := .addressOutOfRange, detail := some (max a 4096) } := by
  induction n generalizing a with
  | zero => simp [memReadRange]
  | succ n ih =>
    simp only [memReadRange, memRead, ih (a + 1)]
    by_cases ha : 4096 ≤ a
    · have : ¬ (n + 1 = 0 ∨ a + (n + 1) ≤ 4096) := by omega
      simp only [Config.memBytes, ha, this, ↓reduceIte, max_eq_left]
    · by_cases hn : n = 0 ∨ a + 1 + n ≤ 4096
      · have : n + 1 = 0 ∨ a + (n + 1) ≤ 4096 := by omega
        simp only [Config.memBytes, ha, hn, this, ↓reduceIte, List.range_succ_eq_map, List.map_cons, List.map_map]
        simp [Function.comp_def, Nat.add_comm, Nat.add_left_comm]
      · have : ¬ (n + 1 = 0 ∨ a + (n + 1) ≤ 4096) := by omega
        have e : max (a + 1) 4096 = max a 4096 := by omega
        simp only [Config.memBytes, ha, hn, this, e, ↓reduceIte]

/-- All a checked range write can do: every byte, or nothing with the first failing address: FontWrite below 0x50 when
that is where it starts, else AddressOutOfRange. -/
theorem memWriteRange_eq (m : Memory) (a : Nat) (bytes : List Byte) :
    memWriteRange m a bytes =
      if bytes = [] then .ok m
      else if a < 0x50 then .error { cause := .fontWrite, detail := some a }
      else if a + bytes.length ≤ 4096 then .ok (m.writeAll a bytes)
      else .error { cause := .addressOutOfRange, detail := some (max a 4096) } := by
  induction bytes generalizing m a with
  | nil => simp [memWriteRange]
  | cons b rest ih =>
    simp only [memWriteRange, memWrite, reduceCtorEq, ↓reduceIte, List.length_cons]
    by_cases h1 : 4096 ≤ a
    · have h2 : ¬ a < 0x50 := by omega
      have h3 : ¬ a + (rest.length + 1) ≤ 4096 := by omega
      have h4 : max a 4096 = a := by omega
      simp only [Config.memBytes, h1, h2, h3, h4, ↓reduceIte]
    · by_cases h2 : a < 0x50
      · simp only [Config.memBytes, Config.fontBytes, h1, h2, ↓reduceIte]
      · simp only [Config.memBytes, Config.fontBytes, h1, h2, ↓reduceIte, ih]
        by_cases h3 : rest = []
        · have h4 : a + 1 ≤ 4096 := by omega
          simp [h3, Memory.writeAll, h4]
        · have h5 : ¬ a + 1 < 0x50 := by omega
          have e : max (a + 1) 4096 = max a 4096 := by omega
          simp only [h3, h5, e, ↓reduceIte, Memory.writeAll]
          simp only [Nat.add_assoc, Nat.add_comm 1]

end Sys2Proof.Machine
end

