-- ==== Sys2Proof/Laws/Registers.lean ====
section
/-! SUPPORT. What the register-range, stack and key operations can do, said once each
(spec/10_state.md R21 to R27; spec/43_index_memory.md R184, R185). -/

namespace Sys2Proof.Machine

/-! ### Register ranges -/

theorem getElem_loadRegsFrom (V : Vector Byte 16) (k : Nat) (bytes : List Byte) (r : Reg) :
    (loadRegsFrom V k bytes)[r] =
      if h : k ≤ r.val ∧ r.val - k < bytes.length then bytes[r.val - k] else V[r] := by
  induction bytes generalizing V k with
  | nil => simp [loadRegsFrom]
  | cons b rest ih =>
    rw [loadRegsFrom, ih]
    by_cases h' : k + 1 ≤ r.val ∧ r.val - (k + 1) < rest.length
    · have h2 : k ≤ r.val ∧ r.val - k < (b :: rest).length := by simp; omega
      have e : r.val - k = (r.val - (k + 1)) + 1 := by omega
      simp only [h', h2, and_self, ↓reduceDIte]
      simp [e]
    · by_cases h : r.val = k
      · have h2 : k ≤ r.val ∧ r.val - k < (b :: rest).length := by simp; omega
        simp only [h', h2, and_self, ↓reduceDIte]
        simp [h]
      · have h2 : ¬ (k ≤ r.val ∧ r.val - k < (b :: rest).length) := by simp; omega
        have h3 : ¬ k = r.val := fun e => h e.symm
        simp only [h', h2, ↓reduceDIte]
        simp [h3]

theorem State.length_regsUpTo (s : State) (x : Reg) : (s.regsUpTo x).length = x.val + 1 := by
  simp only [State.regsUpTo, List.length_take, Vector.length_toList]
  omega

theorem State.getElem_regsUpTo (s : State) (x : Reg) (k : Nat) (h : k < (s.regsUpTo x).length) :
    (s.regsUpTo x)[k] = s.reg ⟨k, by rw [State.length_regsUpTo] at h; omega⟩ := by
  simp [State.regsUpTo, State.reg]

/-! ### Stack -/

/-- All a push can do (R122). -/
theorem State.push_eq (s : State) (ret : Word) :
    s.push ret =
      if h : s.sp.val < 16 then
        .ok { s with stack := s.stack.set s.sp.val ret, sp := ⟨s.sp.val + 1, by omega⟩ }
      else .error { cause := .stackOverflow, detail := none } := rfl

/-- All a pop can do (R120): the entry below `sp`, which stays, or StackUnderflow. -/
theorem State.pop_of_sp (s : State) (j : Fin 16) (h : s.sp.val = j.val + 1) :
    s.pop = .ok (s.stack[j], { s with sp := ⟨j.val, by omega⟩ }) := by
  have h0 : ¬ s.sp.val = 0 := by omega
  simp [State.pop, h]

theorem State.pop_of_empty (s : State) (h : s.sp.val = 0) :
    s.pop = .error { cause := .stackUnderflow, detail := none } := by
  simp [State.pop, h]

/-! ### Keys -/

theorem keyOf_of_eq (b : Byte) (k : Fin 16) (h : b.toNat = k.val) : keyOf b = some k := by
  simp [keyOf, h]

theorem keyOf_of_lt (b : Byte) (h : 15 < b.toNat) : keyOf b = none := by
  have : ¬ b.toNat < 16 := by omega
  simp [keyOf, this]

end Sys2Proof.Machine
end

