-- ==== Sys2Proof/Laws/Cycle.lean ====
section
/-! SUPPORT. The cycle: all a step can do, said once; fault entry; the Timer Unit; the key scan; and placing a word for the
next fetch (spec/30_encoding.md R94 to R102). -/

namespace Sys2Proof.Machine

/-! ### Ending an instruction -/

@[simp] theorem State.commit_ok (s s' : State) (i : Instr) : s.commit i (.ok s') = .next s' := rfl

@[simp] theorem State.commit_error (s : State) (i : Instr) (e : Raise) :
    s.commit i (.error e) = .next (s.takeFault (some (encode i)) e) := rfl

/-- An instruction that may raise always answers a next state. -/
theorem State.commit_next (s : State) (i : Instr) (r : Except Raise State) : ∃ t, s.commit i r = .next t := by
  cases r <;> exact ⟨_, rfl⟩

@[simp] theorem endStep_next (s : State) :
    endStep (.next s) = .next (if s.fault.isSome then s else s.timerUpdate) := rfl

/-! ### Timers -/

theorem countdown_toNat (t : Byte) : (countdown t).toNat = t.toNat - 1 := by
  simp only [countdown]
  split
  · next h => simp [h]
  · next h =>
    have : t.toNat ≠ 0 := fun e => h (BitVec.eq_of_toNat_eq (by simpa using e))
    have := t.isLt
    have h1 : (1 : Byte).toNat = 1 := rfl
    simp only [BitVec.toNat_sub, h1]
    omega

/-! ### The fetch check -/

theorem pcOk_iff (pc : Word) : pcOk pc = true ↔ pc.toNat % 2 = 0 ∧ 0x200 ≤ pc.toNat ∧ pc.toNat ≤ 0xFFE := by
  simp [pcOk, and_assoc]

theorem pcOk_fetchAddress (pc : Word) : pcOk (fetchAddress pc) = true := by
  simp only [fetchAddress]
  split
  · assumption
  · decide

/-! ### The key scan (R96) -/

theorem firstPressed_eq_none {key : Vector Bool 16} (h : ∀ k : Fin 16, key[k] = false) : firstPressed key = none := by
  simp only [firstPressed, List.find?_eq_none]
  intro k _
  simp [h k]

/-- The scan finds the smallest pressed key. -/
theorem firstPressed_eq_some {key : Vector Bool 16} {k : Fin 16} (h : key[k] = true)
    (hmin : ∀ j : Fin 16, j < k → key[j] = false) : firstPressed key = some k := by
  rw [firstPressed, List.find?_eq_some_iff_getElem]
  refine ⟨h, k.val, by simp, by simp, fun j hj => ?_⟩
  have := hmin ⟨j, by omega⟩ (by simpa [Fin.lt_def] using hj)
  simpa using this

/-! ### Steps -/

section
variable {s : State}

/-- A halted step (R95). -/
theorem step_halted (h : s.fault ≠ none) : step s = .next s.clearOutputs := by
  obtain ⟨r, hr⟩ := Option.ne_none_iff_exists'.1 h
  simp [step, hr]

/-- A step in the key wait (R96). -/
theorem step_waiting {x : Reg} (hf : s.fault = none) (hw : s.waitKey = some x) :
    step s = .next (s.clearOutputs.keyWaitStep x) := by
  simp [step, hf, hw]

/-- A step with `pc` out of range (R97). -/
theorem step_badFetch (hf : s.fault = none) (hw : s.waitKey = none) (hp : pcOk s.pc = false) :
    step s = .next s.clearOutputs.badFetch := by
  simp [step, hf, hw, hp]

@[simp] theorem State.fetchWord_clearOutputs (s : State) : s.clearOutputs.fetchWord = s.fetchWord := rfl

/-- A step that fetches an Unknown word (R100). -/
theorem step_unknown (hf : s.fault = none) (hw : s.waitKey = none) (hp : pcOk s.pc = true)
    (hd : decodeWord s.fetchWord = none) :
    step s = .next (s.clearOutputs.reportUnknown s.fetchWord).timerUpdate := by
  simp [step, hf, hw, hp, hd]

/-- A step that fetches an instruction (R99, R101). -/
theorem step_exec {i : Instr} (hf : s.fault = none) (hw : s.waitKey = none) (hp : pcOk s.pc = true)
    (hd : decodeWord s.fetchWord = some i) : step s = endStep (exec i s.clearOutputs) := by
  simp [step, hf, hw, hp, hd]

/-- All a step can do: it is halted, waits for a key, raises PcOutOfRange, reports an Unknown word, or executes the
fetched instruction. -/
theorem step_cases (s : State) :
    (s.fault ≠ none ∧ step s = .next s.clearOutputs) ∨
    (∃ x, s.fault = none ∧ s.waitKey = some x ∧ step s = .next (s.clearOutputs.keyWaitStep x)) ∨
    (s.fault = none ∧ s.waitKey = none ∧ pcOk s.pc = false ∧ step s = .next s.clearOutputs.badFetch) ∨
    (s.fault = none ∧ s.waitKey = none ∧ pcOk s.pc = true ∧ decodeWord s.fetchWord = none ∧
      step s = .next (s.clearOutputs.reportUnknown s.fetchWord).timerUpdate) ∨
    (∃ i, s.fault = none ∧ s.waitKey = none ∧ pcOk s.pc = true ∧ decodeWord s.fetchWord = some i ∧
      step s = endStep (exec i s.clearOutputs)) := by
  by_cases hf : s.fault = none
  · cases hw : s.waitKey with
    | some x => exact Or.inr (Or.inl ⟨x, hf, rfl, step_waiting hf hw⟩)
    | none =>
      cases hp : pcOk s.pc with
      | false => exact Or.inr (Or.inr (Or.inl ⟨hf, rfl, rfl, step_badFetch hf hw hp⟩))
      | true =>
        cases hd : decodeWord s.fetchWord with
        | none => exact Or.inr (Or.inr (Or.inr (Or.inl ⟨hf, rfl, rfl, rfl, step_unknown hf hw hp hd⟩)))
        | some i => exact Or.inr (Or.inr (Or.inr (Or.inr ⟨i, hf, rfl, rfl, rfl, step_exec hf hw hp hd⟩)))
  · exact Or.inl ⟨hf, step_halted hf⟩

end

/-! ### Placing a word for the next fetch -/

/-- A placed word is the one fetched. -/
@[simp] theorem State.fetchWord_placeWord (s : State) (op : Word) : (s.placeWord op).fetchWord = op := by
  simp only [State.fetchWord, State.placeWord]
  rw [Memory.read_writeAll, Memory.read_writeAll]
  simp

/-- From any state, the step after placing a word runs it: the instruction it decodes to, or the Unknown report. -/
theorem step_withFetchWord (s : State) (op : Word) :
    step (s.withFetchWord 16 op.toNat) =
      match decodeWord op with
      | none => .next ((s.placeWord op).clearOutputs.reportUnknown op).timerUpdate
      | some i => endStep (exec i (s.placeWord op).clearOutputs) := by
  have hop : s.withFetchWord 16 op.toNat = s.placeWord op := by
    have e : BitVec.ofNat 16 (op.toNat % 2 ^ 16) = op := BitVec.eq_of_toNat_eq (by simp; exact op.isLt)
    rw [State.withFetchWord, e]
  rw [hop]
  have hp : pcOk (s.placeWord op).pc = true := pcOk_fetchAddress s.pc
  cases hd : decodeWord op with
  | none => simpa using step_unknown rfl rfl hp (by simpa using hd)
  | some i => exact step_exec rfl rfl hp (by simpa using hd)

end Sys2Proof.Machine
end

