-- ==== Sys2Proof/Laws/Exec.lean ====
section
/-! SUPPORT. One lemma for each instruction that can raise, saying all it can do; the other meanings are their own closed
forms (spec/41_control_stack.md to spec/45_keypad_timer_instr.md). -/

namespace Sys2Proof.Machine

/-- The fault entry with the record written out (R243). -/
theorem State.takeFault_eq (s : State) (op : Option Word) (e : Raise) :
    s.takeFault op e = { s with
      fault := some { cause := e.cause, pc := s.pc, opcode := op, detail := e.detail }
      toneEnd := false
      diag := none } := rfl

section
variable (s : State) (x y : Reg)

/-! ### Stack -/

theorem exec_ret_of_sp (j : Fin 16) (h : s.sp.val = j.val + 1) :
    exec .ret s = .next { s with sp := ⟨j.val, by omega⟩, pc := s.stack[j] } := by
  simp only [exec, execRet, s.pop_of_sp j h, State.commit_ok]
  rfl

theorem exec_ret_of_empty (h : s.sp.val = 0) :
    exec .ret s = .next (s.takeFault (some (encode .ret)) { cause := .stackUnderflow, detail := none }) := by
  simp only [exec, execRet, s.pop_of_empty h, State.commit_error]

theorem exec_callAddr (nnn : Addr) :
    exec (.callAddr nnn) s =
      if h : s.sp.val < 16 then
        .next { s with
          stack := s.stack.set s.sp.val (s.pc + 2)
          sp := ⟨s.sp.val + 1, by omega⟩
          pc := zextAddr nnn }
      else .next (s.takeFault (some (encode (.callAddr nnn))) { cause := .stackOverflow, detail := none }) := by
  simp only [exec, execCallAddr, State.push_eq]
  by_cases h : s.sp.val < 16
  · simp only [h, ↓reduceDIte, State.commit_ok]
    rfl
  · simp only [h, ↓reduceDIte, State.commit_error]

/-! ### Stores and loads -/

/-- All a store at I can do (R56). -/
theorem State.storeAtIndex_eq (bytes : List Byte) (h : bytes ≠ []) :
    s.storeAtIndex bytes =
      if s.I.toNat < 0x50 then .error { cause := .fontWrite, detail := some s.I.toNat }
      else if s.I.toNat + bytes.length ≤ 4096 then
        .ok { s with mem := s.mem.writeAll s.I.toNat bytes, pc := s.pc + 2 }
      else .error { cause := .addressOutOfRange, detail := some (max s.I.toNat 4096) } := by
  simp only [State.storeAtIndex, State.dataAddr, Nat.add_zero, memWriteRange_eq, h, ↓reduceIte]
  by_cases h1 : s.I.toNat < 0x50
  · simp only [h1, ↓reduceIte]
  · simp only [h1, ↓reduceIte]
    by_cases h2 : s.I.toNat + bytes.length ≤ 4096
    · simp only [h2, ↓reduceIte]
      rfl
    · simp only [h2, ↓reduceIte]

theorem exec_ldBVx :
    exec (.ldBVx x) s =
      if s.I.toNat < 0x50 then
        .next (s.takeFault (some (encode (.ldBVx x))) { cause := .fontWrite, detail := some s.I.toNat })
      else if s.I.toNat + 3 ≤ 4096 then
        .next { s with mem := s.mem.writeAll s.I.toNat (decimalDigits (s.reg x)), pc := s.pc + 2 }
      else
        .next (s.takeFault (some (encode (.ldBVx x)))
          { cause := .addressOutOfRange, detail := some (max s.I.toNat 4096) }) := by
  have hne : decimalDigits (s.reg x) ≠ [] := by simp [decimalDigits]
  have hlen : (decimalDigits (s.reg x)).length = 3 := rfl
  simp only [exec, execLdBVx, s.storeAtIndex_eq _ hne, hlen]
  by_cases h1 : s.I.toNat < 0x50
  · simp only [h1, ↓reduceIte, State.commit_error]
  · simp only [h1, ↓reduceIte]
    split <;> rfl

theorem exec_ldMemVx :
    exec (.ldMemVx x) s =
      if s.I.toNat < 0x50 then
        .next (s.takeFault (some (encode (.ldMemVx x))) { cause := .fontWrite, detail := some s.I.toNat })
      else if s.I.toNat + (x.val + 1) ≤ 4096 then
        .next { s with mem := s.mem.writeAll s.I.toNat (s.regsUpTo x), pc := s.pc + 2 }
      else
        .next (s.takeFault (some (encode (.ldMemVx x)))
          { cause := .addressOutOfRange, detail := some (max s.I.toNat 4096) }) := by
  have hlen : (s.regsUpTo x).length = x.val + 1 := s.length_regsUpTo x
  have hne : s.regsUpTo x ≠ [] := by
    intro h
    simp [h] at hlen
  simp only [exec, execLdMemVx, s.storeAtIndex_eq _ hne, hlen]
  by_cases h1 : s.I.toNat < 0x50
  · simp only [h1, ↓reduceIte, State.commit_error]
  · simp only [h1, ↓reduceIte]
    split <;> rfl

theorem exec_ldVxMem :
    exec (.ldVxMem x) s =
      if s.I.toNat + (x.val + 1) ≤ 4096 then
        .next { s with
          V := loadRegsFrom s.V 0 ((List.range (x.val + 1)).map fun k => s.mem.read (s.I.toNat + k))
          pc := s.pc + 2 }
      else
        .next (s.takeFault (some (encode (.ldVxMem x)))
          { cause := .addressOutOfRange, detail := some (max s.I.toNat 4096) }) := by
  simp only [exec, execLdVxMem, State.dataAddr, Nat.add_zero, memReadRange_eq, Nat.succ_ne_zero, false_or]
  by_cases h : s.I.toNat + (x.val + 1) ≤ 4096 <;> simp only [h, ↓reduceIte] <;> rfl

/-! ### Drawing -/

theorem exec_drwVxVyNibble (n : Count) :
    exec (.drwVxVyNibble x y n) s =
      if n.val = 0 ∨ s.I.toNat + n.val ≤ 4096 then
        let c := drawRows (s.fb, false) (s.reg x).toNat (s.reg y).toNat
          ((List.range n.val).map fun r => s.mem.read (s.I.toNat + r))
        .next { s with fb := c.1, V := s.V.set VF (flagByte c.2), dirty := true, pc := s.pc + 2 }
      else
        .next (s.takeFault (some (encode (.drwVxVyNibble x y n)))
          { cause := .addressOutOfRange, detail := some (max s.I.toNat 4096) }) := by
  simp only [exec, execDrwVxVyNibble, State.operands, State.dataAddr, Nat.add_zero, memReadRange_eq]
  by_cases h : n.val = 0 ∨ s.I.toNat + n.val ≤ 4096 <;> simp only [h, ↓reduceIte] <;> rfl

/-! ### Key tests -/

theorem exec_skpVx_of_key (k : Fin 16) (h : (s.reg x).toNat = k.val) :
    exec (.skpVx x) s = .next (s.skipIf (s.key[k] == true)) := by
  simp only [exec, execSkpVx, State.keySkip, keyOf_of_eq _ k h, State.commit_ok]

theorem exec_sknpVx_of_key (k : Fin 16) (h : (s.reg x).toNat = k.val) :
    exec (.sknpVx x) s = .next (s.skipIf (s.key[k] == false)) := by
  simp only [exec, execSknpVx, State.keySkip, keyOf_of_eq _ k h, State.commit_ok]

theorem exec_skpVx_of_lt (h : 15 < (s.reg x).toNat) :
    exec (.skpVx x) s = .next (s.takeFault (some (encode (.skpVx x)))
      { cause := .keyIndexOutOfRange, detail := some (s.reg x).toNat }) := by
  simp only [exec, execSkpVx, State.keySkip, keyOf_of_lt _ h, State.commit_error]

theorem exec_sknpVx_of_lt (h : 15 < (s.reg x).toNat) :
    exec (.sknpVx x) s = .next (s.takeFault (some (encode (.sknpVx x)))
      { cause := .keyIndexOutOfRange, detail := some (s.reg x).toNat }) := by
  simp only [exec, execSknpVx, State.keySkip, keyOf_of_lt _ h, State.commit_error]

end

end Sys2Proof.Machine
end

