-- ==== Sys2Proof/Laws/ExecCases.lean ====
section
/-! SUPPORT. All an instruction can do, said once: it raises a condition that R241 lets it raise and changes nothing else,
or it completes and writes only elements the spec lets it write (spec/10_state.md R20, spec/60_exceptions.md R241). -/

namespace Sys2Proof.Machine

/-- The detail depends on I and the registers, which clearing the outputs leaves. -/
@[simp] theorem detailOf_clearOutputs (s : State) (i : Instr) (c : Cause) :
    detailOf s.clearOutputs i c = detailOf s i c := by
  cases i <;> cases c <;> rfl

theorem exec_cases {i : Instr} {s t : State} (h : exec i s = .next t) :
    (∃ e, t = s.takeFault (some (encode i)) e ∧ raisedBy e.cause i = true ∧
      e.detail = detailOf s i e.cause ∧ detailOk e.cause e.detail = true) ∨
    (t.fault = s.fault ∧ t.toneEnd = s.toneEnd ∧ t.diag = s.diag ∧ t.key = s.key ∧ t.mem.font = s.mem.font ∧
      (t.fb ≠ s.fb → i = .cls ∨ ∃ x y n, i = .drwVxVyNibble x y n) ∧
      (t.mem ≠ s.mem → ∃ x, i = .ldBVx x ∨ i = .ldMemVx x) ∧
      (t.I ≠ s.I → (∃ n, i = .ldIAddr n) ∨ (∃ x, i = .addIVx x) ∨ ∃ x, i = .ldFVx x) ∧
      (t.stack ≠ s.stack → ∃ n, i = .callAddr n) ∧
      (t.sp ≠ s.sp → i = .ret ∨ ∃ n, i = .callAddr n) ∧
      (t.waitKey ≠ s.waitKey → ∃ x, i = .ldVxK x ∧ t.waitKey = some x) ∧
      (t.reg VF ≠ s.reg VF → writesVF i = true) ∧
      (s.mem.wf = true → t.mem.wf = true) ∧
      (∀ a, a < 0x50 → t.mem.read a = s.mem.read a)) := by
  cases i
  case ret =>
    by_cases h0 : s.sp.val = 0
    · rw [exec_ret_of_empty s h0] at h; cases h; exact Or.inl ⟨_, rfl, rfl, rfl, rfl⟩
    · rw [exec_ret_of_sp s ⟨s.sp.val - 1, by omega⟩ (by simp; omega)] at h; cases h
      right; simp [State.reg, writesVF]
  case callAddr nnn =>
    rw [exec_callAddr] at h; split at h <;> cases h
    · right; simp [State.reg, writesVF]
    · exact Or.inl ⟨_, rfl, rfl, rfl, rfl⟩
  case ldBVx x =>
    have hI := s.I.isLt
    rw [exec_ldBVx] at h; split at h
    · cases h; exact Or.inl ⟨_, rfl, rfl, rfl, by simp [detailOk]; omega⟩
    split at h <;> cases h
    · right; simp [State.reg, writesVF]; constructor
      · intro hw; exact Memory.wf_writeAll _ hw (by omega) (by simp [decimalDigits]; omega)
      · intro a ha; rw [Memory.read_writeAll, dif_neg (by omega)]
    · exact Or.inl ⟨_, rfl, rfl, rfl, by simp [detailOk]; omega⟩
  case ldMemVx x =>
    have hI := s.I.isLt
    rw [exec_ldMemVx] at h; split at h
    · cases h; exact Or.inl ⟨_, rfl, rfl, rfl, by simp [detailOk]; omega⟩
    split at h <;> cases h
    · right; simp [State.reg, writesVF]; constructor
      · intro hw; exact Memory.wf_writeAll _ hw (by omega) (by rw [State.length_regsUpTo]; omega)
      · intro a ha; rw [Memory.read_writeAll, dif_neg (by omega)]
    · exact Or.inl ⟨_, rfl, rfl, rfl, by simp [detailOk]; omega⟩
  case ldVxMem x =>
    have hI := s.I.isLt
    rw [exec_ldVxMem] at h; split at h <;> cases h
    · right; simp [State.reg, writesVF]
      intro hne
      by_contra hx
      apply hne
      have := getElem_loadRegsFrom s.V 0 (List.map (fun k => s.mem.read (s.I.toNat + k)) (List.range (x.val + 1))) VF
      rw [dif_neg] at this
      · exact this
      · simp; have : x.val ≠ 15 := fun e => hx (Fin.ext e); have := x.isLt; omega
    · exact Or.inl ⟨_, rfl, rfl, rfl, by simp [detailOk]; omega⟩
  case drwVxVyNibble x y n =>
    have hI := s.I.isLt
    rw [exec_drwVxVyNibble] at h; split at h <;> cases h
    · right; simp [State.reg, writesVF]
    · exact Or.inl ⟨_, rfl, rfl, rfl, by simp [detailOk]; omega⟩
  case skpVx x =>
    have hb := (s.reg x).isLt
    by_cases hk : (s.reg x).toNat ≤ 15
    · rw [exec_skpVx_of_key s x ⟨(s.reg x).toNat, by omega⟩ rfl] at h; cases h; right; simp [State.reg, writesVF]
    · rw [exec_skpVx_of_lt s x (by omega)] at h; cases h; exact Or.inl ⟨_, rfl, rfl, rfl, by simp [detailOk]; omega⟩
  case sknpVx x =>
    have hb := (s.reg x).isLt
    by_cases hk : (s.reg x).toNat ≤ 15
    · rw [exec_sknpVx_of_key s x ⟨(s.reg x).toNat, by omega⟩ rfl] at h; cases h; right; simp [State.reg, writesVF]
    · rw [exec_sknpVx_of_lt s x (by omega)] at h; cases h; exact Or.inl ⟨_, rfl, rfl, rfl, by simp [detailOk]; omega⟩
  all_goals
    right; cases h
    first
    | (simp [State.reg, writesVF]; done)
    | (simp [writesVF]; done)
    | (simp [writesVF]; intro h _; exact h.symm)
    | (simp [writesVF]; intro hne; by_contra hx; apply hne; rw [if_neg (fun e => hx e.symm)]; rfl)

end Sys2Proof.Machine
end

