-- ==== Sys2Proof/Laws/PerInstr.lean ====
section
/-! SUPPORT. One law per constructor: an instruction's word matches the opcode table's row of that instruction
(spec/30_encoding.md R85 to R91), whatever its operands. -/

namespace Sys2Proof.Laws.EncodeMatchesRow

/-- The row of the opcode table an instruction belongs to. -/
def row : Instr → Fin 34
  | .cls => 0
  | .ret => 1
  | .jpAddr _ => 2
  | .callAddr _ => 3
  | .seVxByte _ _ => 4
  | .sneVxByte _ _ => 5
  | .seVxVy _ _ => 6
  | .ldVxByte _ _ => 7
  | .addVxByte _ _ => 8
  | .ldVxVy _ _ => 9
  | .orVxVy _ _ => 10
  | .andVxVy _ _ => 11
  | .xorVxVy _ _ => 12
  | .addVxVy _ _ => 13
  | .subVxVy _ _ => 14
  | .shrVxVy _ _ => 15
  | .subnVxVy _ _ => 16
  | .shlVxVy _ _ => 17
  | .sneVxVy _ _ => 18
  | .ldIAddr _ => 19
  | .jpV0Addr _ => 20
  | .rndVxByte _ _ => 21
  | .drwVxVyNibble _ _ _ => 22
  | .skpVx _ => 23
  | .sknpVx _ => 24
  | .ldVxDT _ => 25
  | .ldVxK _ => 26
  | .ldDTVx _ => 27
  | .ldSTVx _ => 28
  | .addIVx _ => 29
  | .ldFVx _ => 30
  | .ldBVx _ => 31
  | .ldMemVx _ => 32
  | .ldVxMem _ => 33

/-- The word of `i`, masked as `i`'s row of the opcode table says, is the row's match. -/
def Statement (i : Instr) : Prop :=
  encode i &&& (opcodeRows.getD (row i).val (0, 0)).1 = (opcodeRows.getD (row i).val (0, 0)).2

/-- Two words with one value are one word. -/
theorem of_toNat {a b : Word} (h : a.toNat = b.toNat) : a = b := BitVec.eq_of_toNat_eq h

section
variable (f : BitVec 4) (x y : Reg)

theorem xnn_F000 (nn : Byte) : (encodeXNN f x nn &&& 0xF000).toNat = f.toNat * 4096 := by
  have := nn.isLt
  have := x.isLt
  rw [toNat_and_F000, encodeXNN_toNat]
  omega

theorem xnn_F0FF (nn : Byte) : (encodeXNN f x nn &&& 0xF0FF).toNat = f.toNat * 4096 + nn.toNat := by
  have := nn.isLt
  have := x.isLt
  rw [toNat_and_F0FF, encodeXNN_toNat]
  omega

theorem xyn_F000 (n : BitVec 4) : (encodeXYN f x y n &&& 0xF000).toNat = f.toNat * 4096 := by
  have := n.isLt
  have := x.isLt
  have := y.isLt
  rw [toNat_and_F000, encodeXYN_toNat]
  omega

theorem xyn_F00F (n : BitVec 4) : (encodeXYN f x y n &&& 0xF00F).toNat = f.toNat * 4096 + n.toNat := by
  have := n.isLt
  have := x.isLt
  have := y.isLt
  rw [toNat_and_F00F, encodeXYN_toNat]
  omega

theorem nnn_F000 (nnn : Addr) : (encodeNNN f nnn &&& 0xF000).toNat = f.toNat * 4096 := by
  have := nnn.isLt
  rw [toNat_and_F000, encodeNNN_toNat]
  omega

end

theorem cls : Statement (.cls) := rfl

theorem ret : Statement (.ret) := rfl

theorem jpAddr (nnn : Addr) : Statement (.jpAddr nnn) := of_toNat (nnn_F000 0x1 nnn)

theorem callAddr (nnn : Addr) : Statement (.callAddr nnn) := of_toNat (nnn_F000 0x2 nnn)

theorem seVxByte (x : Reg) (nn : Byte) : Statement (.seVxByte x nn) := of_toNat (xnn_F000 0x3 x nn)

theorem sneVxByte (x : Reg) (nn : Byte) : Statement (.sneVxByte x nn) := of_toNat (xnn_F000 0x4 x nn)

theorem seVxVy (x y : Reg) : Statement (.seVxVy x y) := of_toNat (xyn_F00F 0x5 x y 0x0)

theorem ldVxByte (x : Reg) (nn : Byte) : Statement (.ldVxByte x nn) := of_toNat (xnn_F000 0x6 x nn)

theorem addVxByte (x : Reg) (nn : Byte) : Statement (.addVxByte x nn) := of_toNat (xnn_F000 0x7 x nn)

theorem ldVxVy (x y : Reg) : Statement (.ldVxVy x y) := of_toNat (xyn_F00F 0x8 x y 0x0)

theorem orVxVy (x y : Reg) : Statement (.orVxVy x y) := of_toNat (xyn_F00F 0x8 x y 0x1)

theorem andVxVy (x y : Reg) : Statement (.andVxVy x y) := of_toNat (xyn_F00F 0x8 x y 0x2)

theorem xorVxVy (x y : Reg) : Statement (.xorVxVy x y) := of_toNat (xyn_F00F 0x8 x y 0x3)

theorem addVxVy (x y : Reg) : Statement (.addVxVy x y) := of_toNat (xyn_F00F 0x8 x y 0x4)

theorem subVxVy (x y : Reg) : Statement (.subVxVy x y) := of_toNat (xyn_F00F 0x8 x y 0x5)

theorem shrVxVy (x y : Reg) : Statement (.shrVxVy x y) := of_toNat (xyn_F00F 0x8 x y 0x6)

theorem subnVxVy (x y : Reg) : Statement (.subnVxVy x y) := of_toNat (xyn_F00F 0x8 x y 0x7)

theorem shlVxVy (x y : Reg) : Statement (.shlVxVy x y) := of_toNat (xyn_F00F 0x8 x y 0xE)

theorem sneVxVy (x y : Reg) : Statement (.sneVxVy x y) := of_toNat (xyn_F00F 0x9 x y 0x0)

theorem ldIAddr (nnn : Addr) : Statement (.ldIAddr nnn) := of_toNat (nnn_F000 0xA nnn)

theorem jpV0Addr (nnn : Addr) : Statement (.jpV0Addr nnn) := of_toNat (nnn_F000 0xB nnn)

theorem rndVxByte (x : Reg) (nn : Byte) : Statement (.rndVxByte x nn) := of_toNat (xnn_F000 0xC x nn)

theorem drwVxVyNibble (x y : Reg) (n : Count) : Statement (.drwVxVyNibble x y n) := of_toNat (xyn_F000 0xD x y (nibble n))

theorem skpVx (x : Reg) : Statement (.skpVx x) := of_toNat (xnn_F0FF 0xE x 0x9E)

theorem sknpVx (x : Reg) : Statement (.sknpVx x) := of_toNat (xnn_F0FF 0xE x 0xA1)

theorem ldVxDT (x : Reg) : Statement (.ldVxDT x) := of_toNat (xnn_F0FF 0xF x 0x07)

theorem ldVxK (x : Reg) : Statement (.ldVxK x) := of_toNat (xnn_F0FF 0xF x 0x0A)

theorem ldDTVx (x : Reg) : Statement (.ldDTVx x) := of_toNat (xnn_F0FF 0xF x 0x15)

theorem ldSTVx (x : Reg) : Statement (.ldSTVx x) := of_toNat (xnn_F0FF 0xF x 0x18)

theorem addIVx (x : Reg) : Statement (.addIVx x) := of_toNat (xnn_F0FF 0xF x 0x1E)

theorem ldFVx (x : Reg) : Statement (.ldFVx x) := of_toNat (xnn_F0FF 0xF x 0x29)

theorem ldBVx (x : Reg) : Statement (.ldBVx x) := of_toNat (xnn_F0FF 0xF x 0x33)

theorem ldMemVx (x : Reg) : Statement (.ldMemVx x) := of_toNat (xnn_F0FF 0xF x 0x55)

theorem ldVxMem (x : Reg) : Statement (.ldVxMem x) := of_toNat (xnn_F0FF 0xF x 0x65)

end Sys2Proof.Laws.EncodeMatchesRow
end

