-- ==== Sys2Proof/Tests/Slice0.lean ====
section
/-! SUPPORT. The model's own tests. Expected results come from the spec: V<n>, S<n> are the vectors of
spec/95_test_vectors.md, and words are written out from the patterns of spec/30_encoding.md R85 to R90. At the end, one
theorem for each statement that has hypotheses, with values that meet them. -/

namespace Sys2Proof.Tests

open Sys2Proof.Machine

/-! ## Well-formedness (WellFormed.lean) -/

theorem test_wellFormed_longest_program : programFits (List.replicate 3584 0x60) = true := by
  rw [programFits, List.length_replicate]
  decide

theorem test_wellFormed_refuses_long_program : programFits (List.replicate 3585 0x60) = false := by
  rw [programFits, List.length_replicate]
  decide

theorem test_wellFormed_refuses_key_index_16 : keyIndexOk 15 = true ∧ keyIndexOk 16 = false := by decide

theorem test_memory_wf_refuses_bad_cells :
    ({ font := defaultFont, cells := [(0x4F, 1)] } : Memory).wf = false ∧
    ({ font := defaultFont, cells := [(0x1000, 1)] } : Memory).wf = false ∧
    ({ font := defaultFont, cells := [(0x300, 0)] } : Memory).wf = false ∧
    ({ font := defaultFont, cells := [(0x301, 1), (0x300, 1)] } : Memory).wf = false ∧
    ({ font := defaultFont, cells := [(0x050, 1), (0xFFF, 1)] } : Memory).wf = true := by decide

/-! ## Decoding: a word for every constructor, bit by bit -/

theorem test_decode_family_0 :
    decodeWord 0b0000_0000_1110_0000 = some .cls ∧ decodeWord 0b0000_0000_1110_1110 = some .ret := by decide

theorem test_decode_families_1_2_A_B :
    decodeWord 0b0001_0010_0011_0100 = some (.jpAddr 0x234) ∧
    decodeWord 0b0010_0010_0001_0000 = some (.callAddr 0x210) ∧
    decodeWord 0b1010_0011_0000_0001 = some (.ldIAddr 0x301) ∧
    decodeWord 0b1011_0011_0000_0010 = some (.jpV0Addr 0x302) := by decide

theorem test_decode_families_3_4_6_7_C :
    decodeWord 0b0011_0011_0001_0000 = some (.seVxByte 3 0x10) ∧
    decodeWord 0b0100_0011_0001_0000 = some (.sneVxByte 3 0x10) ∧
    decodeWord 0b0110_1010_0111_1011 = some (.ldVxByte 0xA 0x7B) ∧
    decodeWord 0b0111_0001_0000_0010 = some (.addVxByte 1 0x02) ∧
    decodeWord 0b1100_0011_0000_1111 = some (.rndVxByte 3 0x0F) := by decide

theorem test_decode_families_5_9_D :
    decodeWord 0b0101_0001_0010_0000 = some (.seVxVy 1 2) ∧
    decodeWord 0b1001_0001_0010_0000 = some (.sneVxVy 1 2) ∧
    decodeWord 0b1101_0001_0010_0011 = some (.drwVxVyNibble 1 2 3) := by decide

theorem test_decode_family_8 :
    decodeWord 0b1000_0001_0010_0000 = some (.ldVxVy 1 2) ∧ decodeWord 0b1000_0001_0010_0001 = some (.orVxVy 1 2) ∧
    decodeWord 0b1000_0001_0010_0010 = some (.andVxVy 1 2) ∧ decodeWord 0b1000_0001_0010_0011 = some (.xorVxVy 1 2) ∧
    decodeWord 0b1000_0001_0010_0100 = some (.addVxVy 1 2) ∧ decodeWord 0b1000_0001_0010_0101 = some (.subVxVy 1 2) ∧
    decodeWord 0b1000_0001_0010_0110 = some (.shrVxVy 1 2) ∧ decodeWord 0b1000_0001_0010_0111 = some (.subnVxVy 1 2) ∧
    decodeWord 0b1000_0001_0010_1110 = some (.shlVxVy 1 2) := by decide

theorem test_decode_families_E_F :
    decodeWord 0b1110_0101_1001_1110 = some (.skpVx 5) ∧ decodeWord 0b1110_0101_1010_0001 = some (.sknpVx 5) ∧
    decodeWord 0b1111_0011_0000_0111 = some (.ldVxDT 3) ∧ decodeWord 0b1111_0010_0000_1010 = some (.ldVxK 2) ∧
    decodeWord 0b1111_0100_0001_0101 = some (.ldDTVx 4) ∧ decodeWord 0b1111_0110_0001_1000 = some (.ldSTVx 6) ∧
    decodeWord 0b1111_0010_0001_1110 = some (.addIVx 2) ∧ decodeWord 0b1111_0111_0010_1001 = some (.ldFVx 7) ∧
    decodeWord 0b1111_1010_0011_0011 = some (.ldBVx 0xA) ∧ decodeWord 0b1111_1000_0101_0101 = some (.ldMemVx 8) ∧
    decodeWord 0b1111_1111_0110_0101 = some (.ldVxMem 0xF) := by decide

/-- V150, V153 to V158, V160, V161. -/
theorem test_decode_unknown :
    [(0x0000 : Word), 0x01E0, 0x00E1, 0x0123, 0x5001, 0x912F, 0x8008, 0x800D, 0x800F, 0xE09F, 0xE0A2, 0xE000, 0xF000, 0xF008,
      0xF030, 0xF056, 0xF075, 0xFFFF].all (fun w => decodeWord w == none) = true := by decide

/-- R80: two bytes are consumed, and fewer are rejected by name. -/
theorem test_decodeBytes :
    decodeBytes [0x81, 0x24, 0xAA] = .instr (.addVxVy 1 2) [0xAA] ∧
    decodeBytes [0x50, 0x01] = .unknownOpcode 0x5001 [] ∧ decodeBytes [0x81] = .truncated := by decide

theorem test_decodeTableWord :
    decodeTableWord 16 0x00E0 = some .cls ∧ decodeTableWord 16 0xFF65 = some (.ldVxMem 0xF) ∧
    decodeTableWord 16 0x912F = none := by decide

/-! ## One step each -/

/-- The state a result answers, or the given one. -/
def nextOf (s : State) : Result → State
  | .next t => t
  | .fault _ => s
  | .refused _ => s

/-- The result is a next state. -/
def answersNext : Result → Bool
  | .next _ => true
  | .fault _ => false
  | .refused _ => false

theorem eq_next {r : Result} (h : answersNext r = true) : r = .next (nextOf State.reset r) := by
  cases r <;> first | rfl | cases h

/-- The state after the step that runs the word `w` from `s`. -/
def run (w : Nat) (s : State) : State := nextOf s (step (s.withFetchWord 16 w))

/-- The reset state with register values. -/
def withRegs (rs : List (Reg × Byte)) : State := rs.foldl (fun s r => s.setReg r.1 r.2) State.reset

/-- The reset state with V1 and V2. -/
def v12 (a b : Byte) : State := withRegs [(1, a), (2, b)]

/-- The reset state with `I` and register values. -/
def atI (i : Word) (rs : List (Reg × Byte)) : State := { withRegs rs with I := i }

/-- The reset state with sprite bytes at 0x300, `I` there, and register values. -/
def sprite (rows : List Byte) (rs : List (Reg × Byte)) : State :=
  { atI 0x300 rs with mem := State.reset.mem.writeAll 0x300 rows }

/-- A screen with the pixels (column, row) on and no other. -/
def screen (on : List (Fin 64 × Fin 32)) : Framebuffer := on.foldl (fun fb p => togglePixel fb p.1 p.2) blankScreen

/-- V100, V101. -/
theorem test_cls :
    (run 0x00E0 { State.reset with fb := togglePixel blankScreen 5 6 }).fb = blankScreen ∧
    (run 0x00E0 State.reset).dirty = true ∧ (run 0x00E0 State.reset).pc = 0x202 := by decide

/-- V1, V2. -/
theorem test_ret :
    (run 0x00EE { State.reset with pc := 0x212, sp := 1, stack := State.reset.stack.set 0 0x206 }).pc = 0x206 ∧
    (run 0x00EE { State.reset with pc := 0x212, sp := 1, stack := State.reset.stack.set 0 0x206 }).sp = 0 ∧
    (run 0x00EE { State.reset with pc := 0x212, sp := 1, stack := State.reset.stack.set 0 0x206 }).stack[0] = 0x206 ∧
    (run 0x00EE State.reset).fault =
      some { cause := .stackUnderflow, pc := 0x200, opcode := some 0x00EE, detail := none } := by decide

/-- V3, V4. -/
theorem test_jp :
    (run 0x1234 State.reset).pc = 0x234 ∧ (run 0x1FFF State.reset).pc = 0xFFF ∧
    (nextOf State.reset (step (run 0x1FFF State.reset))).fault =
      some { cause := .pcOutOfRange, pc := 0xFFF, opcode := none, detail := none } := by decide

/-- V6, V7. -/
theorem test_call :
    (run 0x2210 { State.reset with pc := 0x204 }).stack[0] = 0x206 ∧
    (run 0x2210 { State.reset with pc := 0x204 }).pc = 0x210 ∧
    (run 0x2400 { State.reset with pc := 0x300, sp := 15 }).stack[15] = 0x302 ∧
    (run 0x2400 { State.reset with pc := 0x300, sp := 15 }).sp = 16 := by decide

/-- V8. -/
theorem test_call_overflow :
    (run 0x2400 { State.reset with pc := 0x300, sp := 16 }).fault =
      some { cause := .stackOverflow, pc := 0x300, opcode := some 0x2400, detail := none } ∧
    (run 0x2400 { State.reset with pc := 0x300, sp := 16 }).pc = 0x300 := by decide

/-- V10, V11. -/
theorem test_jpV0 :
    (run 0xB300 (withRegs [(0, 0x04)])).pc = 0x304 ∧ (run 0xBFFF (withRegs [(0, 0xFF)])).pc = 0x10FE := by decide

/-- V14, V15. -/
theorem test_se_byte :
    (run 0x3310 (withRegs [(3, 0x10)])).pc = 0x204 ∧ (run 0x3310 (withRegs [(3, 0x11)])).pc = 0x202 := by decide

/-- V17, V18. -/
theorem test_sne_byte :
    (run 0x4310 (withRegs [(3, 0x11)])).pc = 0x204 ∧ (run 0x4310 (withRegs [(3, 0x10)])).pc = 0x202 := by decide

/-- V19, V20. -/
theorem test_se_reg : (run 0x5120 (v12 0x7F 0x7F)).pc = 0x204 ∧ (run 0x5120 (v12 0x7F 0x80)).pc = 0x202 := by decide

/-- V22, V23. -/
theorem test_sne_reg : (run 0x9120 (v12 0x01 0x02)).pc = 0x204 ∧ (run 0x9440 (v12 0x01 0x02)).pc = 0x202 := by decide

/-- V30; S1 with X = F. -/
theorem test_ld_byte :
    (run 0x6A7B State.reset).reg 0xA = 0x7B ∧ (run 0x6A7B State.reset).pc = 0x202 ∧
    (run 0x6F12 State.reset).reg VF = 0x12 := by decide

/-- V31, V32. -/
theorem test_add_byte :
    (run 0x7102 (withRegs [(1, 0xFF), (VF, 0x55)])).reg 1 = 0x01 ∧
    (run 0x7102 (withRegs [(1, 0xFF), (VF, 0x55)])).reg VF = 0x55 ∧
    (run 0x7FFF (withRegs [(VF, 0x01)])).reg VF = 0x00 := by decide

/-- V33. -/
theorem test_ld_reg : (run 0x8120 (v12 0 0x33)).reg 1 = 0x33 ∧ (run 0x8120 (v12 0 0x33)).reg 2 = 0x33 := by decide

/-- V34. -/
theorem test_or :
    (run 0x8121 (withRegs [(1, 0x0F), (2, 0xF0), (VF, 0x77)])).reg 1 = 0xFF ∧
    (run 0x8121 (withRegs [(1, 0x0F), (2, 0xF0), (VF, 0x77)])).reg VF = 0x77 := by decide

/-- V35. -/
theorem test_and : (run 0x8122 (v12 0x3C 0x0F)).reg 1 = 0x0C := by decide

/-- V36, V37. -/
theorem test_xor : (run 0x8123 (v12 0xFF 0x0F)).reg 1 = 0xF0 ∧ (run 0x8113 (v12 0x5A 0)).reg 1 = 0 := by decide

/-- V38 to V40; the corrected half of S2. -/
theorem test_add :
    (run 0x8124 (v12 0xFA 0x0A)).reg 1 = 0x04 ∧ (run 0x8124 (v12 0xFA 0x0A)).reg VF = 1 ∧
    (run 0x8124 (v12 0xFF 0x00)).reg VF = 0 ∧
    (run 0x8124 (v12 0x0A 0x05)).reg 1 = 0x0F ∧ (run 0x8124 (v12 0x0A 0x05)).reg VF = 0 := by decide

/-- V42, V43. -/
theorem test_add_with_F :
    (run 0x8F24 (withRegs [(VF, 0xF0), (2, 0x20)])).reg VF = 0x10 ∧
    (run 0x81F4 (withRegs [(1, 0x01), (VF, 0xFF)])).reg 1 = 0 ∧
    (run 0x81F4 (withRegs [(1, 0x01), (VF, 0xFF)])).reg VF = 1 := by decide

/-- V44 to V46. -/
theorem test_sub :
    (run 0x8125 (v12 0x05 0x0A)).reg 1 = 0xFB ∧ (run 0x8125 (v12 0x05 0x0A)).reg VF = 0 ∧
    (run 0x8125 (v12 0x0A 0x05)).reg 1 = 0x05 ∧ (run 0x8125 (v12 0x0A 0x05)).reg VF = 1 ∧
    (run 0x8125 (v12 0x42 0x42)).reg VF = 1 := by decide

/-- V47. -/
theorem test_sub_with_F : (run 0x8F25 (withRegs [(VF, 0x05), (2, 0x0A)])).reg VF = 0xFB := by decide

/-- V48, V51. -/
theorem test_shr :
    (run 0x8126 (v12 0x99 0x05)).reg 1 = 0x02 ∧ (run 0x8126 (v12 0x99 0x05)).reg VF = 1 ∧
    (run 0x8F26 (v12 0 0x05)).reg VF = 0x02 := by decide

/-- V52, V53. -/
theorem test_subn :
    (run 0x8127 (v12 0x0A 0x05)).reg 1 = 0xFB ∧ (run 0x8127 (v12 0x0A 0x05)).reg VF = 0 ∧
    (run 0x8127 (v12 0x05 0x0A)).reg 1 = 0x05 ∧ (run 0x8127 (v12 0x05 0x0A)).reg VF = 1 := by decide

/-- V54, V57. -/
theorem test_shl :
    (run 0x812E (v12 0 0x81)).reg 1 = 0x02 ∧ (run 0x812E (v12 0 0x81)).reg VF = 1 ∧
    (run 0x8F2E (v12 0 0xFF)).reg VF = 0xFE := by decide

/-- V61: whatever byte is drawn; the draw is counted. -/
theorem test_rnd : (run 0xC300 (withRegs [(3, 0x99)])).reg 3 = 0 ∧ (run 0xC300 State.reset).draws = 1 :=
  ⟨(BitVec.and_zero : Config.randomByte 0 &&& 0#8 = 0#8), rfl⟩

/-- V70. -/
theorem test_ld_I : (run 0xA300 (atI 0xFFFF [])).I = 0x300 := by decide

/-- V71, V72. -/
theorem test_add_I :
    (run 0xF21E (atI 0x0FFE [(2, 0x03)])).I = 0x1001 ∧ (run 0xF21E (atI 0xFFFF [(2, 0x01)])).I = 0 := by decide

/-- V74, V75, V76. -/
theorem test_ld_F :
    (run 0xF029 (withRegs [(0, 0x0F)])).I = 0x4B ∧ (run 0xF029 (withRegs [(0, 0x10)])).I = 0x50 ∧
    (run 0xF029 (withRegs [(0, 0xFF)])).I = 0x4FB := by decide

/-- V77, V78. -/
theorem test_ld_B :
    (List.range 3).map (fun k => (run 0xFA33 (atI 0x300 [(0xA, 0x7B)])).mem.read (0x300 + k)) = [1, 2, 3] ∧
    (List.range 3).map (fun k => (run 0xFA33 (atI 0x300 [(0xA, 0xFF)])).mem.read (0x300 + k)) = [2, 5, 5] := by decide

/-- V81, V82, V83. -/
theorem test_ld_B_faults :
    (run 0xFA33 (atI 0x0FFE [(0xA, 0x7B)])).fault =
      some { cause := .addressOutOfRange, pc := 0x200, opcode := some 0xFA33, detail := some 0x1000 } ∧
    (run 0xFA33 (atI 0x0FFE [(0xA, 0x7B)])).mem.read 0xFFE = 0 ∧
    (run 0xFA33 (atI 0x004F [(0xA, 0x7B)])).fault =
      some { cause := .fontWrite, pc := 0x200, opcode := some 0xFA33, detail := some 0x4F } ∧
    (run 0xFA33 (atI 0xFFFF [(0xA, 0x7B)])).fault =
      some { cause := .addressOutOfRange, pc := 0x200, opcode := some 0xFA33, detail := some 0xFFFF } := by decide

/-- V84, V85. -/
theorem test_ld_mem :
    (List.range 4).map (fun k => (run 0xF255 (atI 0x400 [(0, 0x11), (1, 0x22), (2, 0x33), (3, 0x44)])).mem.read (0x400 + k)) =
      [0x11, 0x22, 0x33, 0] ∧
    (run 0xF255 (atI 0x400 [(0, 0x11)])).I = 0x400 ∧
    (run 0xF055 (atI 0x400 [(0, 0x11), (1, 0x22)])).mem.read 0x401 = 0 := by decide

/-- V87, V88. -/
theorem test_ld_mem_faults :
    (run 0xF355 (atI 0x0FFE [])).fault =
      some { cause := .addressOutOfRange, pc := 0x200, opcode := some 0xF355, detail := some 0x1000 } ∧
    (run 0xF755 (atI 0x0048 [])).fault =
      some { cause := .fontWrite, pc := 0x200, opcode := some 0xF755, detail := some 0x48 } := by decide

/-- V89; V90 with the default font. -/
theorem test_ld_regs :
    (List.finRange 4).map (fun k => (run 0xF265 (sprite [1, 2, 3, 4] [])).reg ⟨k.val, by omega⟩) = [1, 2, 3, 0] ∧
    (run 0xF465 (atI 0 [])).reg 0 = 0xF0 ∧ (run 0xF465 (atI 0 [])).reg 1 = 0x90 := by decide

/-- V92. -/
theorem test_ld_regs_fault :
    (run 0xF165 (atI 0x0FFF [(0, 0x77)])).fault =
      some { cause := .addressOutOfRange, pc := 0x200, opcode := some 0xF165, detail := some 0x1000 } ∧
    (run 0xF165 (atI 0x0FFF [(0, 0x77)])).reg 0 = 0x77 := by decide

/-- V104: a sprite over the right and bottom edges. -/
theorem test_drw :
    (run 0xD122 (sprite [0xC3, 0x81] [(1, 62), (2, 31)])).fb =
      screen [(62, 31), (63, 31), (4, 31), (5, 31), (62, 0), (5, 0)] ∧
    (run 0xD122 (sprite [0xC3, 0x81] [(1, 62), (2, 31)])).dirty = true := by decide

/-- V106, V107, V111. -/
theorem test_drw_collision_and_fault :
    (run 0xD011 { sprite [0x01] [] with fb := togglePixel blankScreen 7 0 }).reg VF = 1 ∧
    (run 0xD011 { sprite [0x01] [] with fb := togglePixel blankScreen 7 0 }).fb = blankScreen ∧
    (run 0xDF11 (sprite [0x80] [(VF, 5)])).fb = togglePixel blankScreen 5 0 ∧
    (run 0xDF11 (sprite [0x80] [(VF, 5)])).reg VF = 0 ∧
    (run 0xD012 (atI 0x0FFF [])).fault =
      some { cause := .addressOutOfRange, pc := 0x200, opcode := some 0xD012, detail := some 0x1000 } := by decide

/-- The reset state with V5 = 7 and key 7 pressed or not. -/
def key7 (p : Bool) : State := setKeyState 7 p (withRegs [(5, 7)])

/-- V120, V121, V124. -/
theorem test_skp :
    (run 0xE59E (key7 true)).pc = 0x204 ∧ (run 0xE59E (key7 false)).pc = 0x202 ∧
    (run 0xE59E (withRegs [(5, 0x10)])).fault =
      some { cause := .keyIndexOutOfRange, pc := 0x200, opcode := some 0xE59E, detail := some 0x10 } := by decide

/-- V122, V123, V125. -/
theorem test_sknp :
    (run 0xE5A1 (key7 false)).pc = 0x204 ∧ (run 0xE5A1 (key7 true)).pc = 0x202 ∧
    (run 0xE5A1 (withRegs [(5, 0xFF)])).fault =
      some { cause := .keyIndexOutOfRange, pc := 0x200, opcode := some 0xE5A1, detail := some 0xFF } := by decide

/-- V126. -/
theorem test_ld_from_DT :
    (run 0xF307 { State.reset with DT := 0x3C }).reg 3 = 0x3C ∧ (run 0xF307 { State.reset with DT := 0x3C }).DT = 0x3B := by
  decide

/-- V134. -/
theorem test_ld_key :
    (run 0xF20A { State.reset with pc := 0x208 }).waitKey = some 2 ∧
    (run 0xF20A { State.reset with pc := 0x208 }).pc = 0x208 := by decide

/-- V128, V129, V130. -/
theorem test_ld_to_DT :
    (run 0xF015 (withRegs [(0, 3)])).DT = 2 ∧ (run 0xF015 (withRegs [(0, 1)])).DT = 0 ∧
    (run 0xF015 { State.reset with DT := 9 }).DT = 0 := by decide

/-- V131, V132, V133. -/
theorem test_ld_to_ST :
    (run 0xF018 (withRegs [(0, 3)])).ST = 2 ∧ toneActive (run 0xF018 (withRegs [(0, 3)])) = true ∧
    (run 0xF018 (withRegs [(0, 1)])).toneEnd = true ∧
    (run 0xF018 { State.reset with ST := 5 }).toneEnd = false ∧ (run 0xF018 { State.reset with ST := 5 }).ST = 0 := by decide

/-! ## The cycle and the ports -/

/-- V135, V136. -/
theorem test_key_wait :
    (nextOf State.reset (step { State.reset with waitKey := some 2, pc := 0x208, DT := 5 })) =
      { State.reset with waitKey := some 2, pc := 0x208, DT := 5 } ∧
    (nextOf State.reset (step (setKeyState 7 true (setKeyState 0xA true
      { State.reset with waitKey := some 2, pc := 0x208, DT := 5 })))).reg 2 = 7 ∧
    (nextOf State.reset (step (setKeyState 7 true
      { State.reset with waitKey := some 2, pc := 0x208, DT := 5 }))).pc = 0x20A ∧
    (nextOf State.reset (step (setKeyState 7 true
      { State.reset with waitKey := some 2, pc := 0x208, DT := 5 }))).DT = 4 := by decide

/-- V140, V144. -/
theorem test_timers :
    (run 0x6000 { State.reset with DT := 1, ST := 1 }).toneEnd = true ∧
    (run 0x6000 { State.reset with DT := 1, ST := 1 }).DT = 0 ∧
    (run 0x00EE { State.reset with DT := 5, ST := 1 }).ST = 1 ∧
    (run 0x00EE { State.reset with DT := 5, ST := 1 }).toneEnd = false := by decide

/-- S8: an Unknown word. -/
theorem test_unknown_word :
    (run 0x5001 { State.reset with DT := 2 }).diag = some { rawOpcode := 0x5001, programCounter := 0x200 } ∧
    (run 0x5001 { State.reset with DT := 2 }).pc = 0x202 ∧ (run 0x5001 { State.reset with DT := 2 }).DT = 1 := by decide

/-- V170, V171, V173. -/
theorem test_pc_out_of_range :
    [(0x201 : Word), 0x1FE, 0x1000].all (fun pc => (nextOf State.reset (step { State.reset with pc := pc })).fault ==
      some { cause := .pcOutOfRange, pc := pc, opcode := none, detail := none }) = true := by decide

/-- V176, V179, V180, V182. -/
theorem test_ports :
    (loadProgram [0x11, 0x22] { State.reset with mem := State.reset.mem.writeAll 0x200 [0xAA, 0xBB, 0xCC] }).2.mem =
      State.reset.mem.writeAll 0x200 [0x11, 0x22, 0xCC] ∧
    setKeyState 16 true State.reset = State.reset ∧ (setKeyState 4 true State.reset).key[4] = true ∧
    (frameConsumed { State.reset with dirty := true }).dirty = false := by decide

/-- A written byte that is what the address reads as unlisted is taken off the list. -/
theorem test_memory_canonical :
    ((State.reset.mem.write 0x300 7).write 0x300 0) = State.reset.mem ∧ (State.reset.mem.read 0x04F) = 0x80 ∧
    State.reset.mem.read 0x300 = 0 := by decide

/-! ## Witnesses: values that meet the hypotheses of each statement, each clause at a boundary -/

/-- The reset state with a program loaded. -/
def boot (bytes : List Byte) : State := (loadProgram bytes State.reset).2

/-- A booted state fetches its program's first word. -/
theorem boot_fetches : FetchesWord (boot [0x60, 0x01]) 0x6001 ∧ FetchesWord (boot [0x50, 0x01]) 0x5001 := by
  unfold FetchesWord Fetches
  decide

theorem witness_DecodedWordIsTheEncoding : decodeWord 0x8124 = some (.addVxVy 1 2) ∧ encode (.addVxVy 1 2) = 0x8124 := by
  decide

theorem witness_DecodeOfWholeFamilies :
    ((0x00E0 : Word) &&& 0xFFFF = 0x00E0) ∧ ((0x00EE : Word) &&& 0xFFFF = 0x00EE) ∧
    ((0x0EEE : Word) &&& 0xF000 = 0x0000) ∧ ((0x1FFF : Word) &&& 0xF000 = 0x1000) ∧
    ((0x2000 : Word) &&& 0xF000 = 0x2000) ∧ ((0x3F10 : Word) &&& 0xF000 = 0x3000) ∧
    ((0x4FFF : Word) &&& 0xF000 = 0x4000) ∧ ((0x6000 : Word) &&& 0xF000 = 0x6000) ∧
    ((0x7FFF : Word) &&& 0xF000 = 0x7000) ∧ ((0xAFFF : Word) &&& 0xF000 = 0xA000) ∧
    ((0xB000 : Word) &&& 0xF000 = 0xB000) ∧ ((0xCFFF : Word) &&& 0xF000 = 0xC000) ∧
    ((0xD000 : Word) &&& 0xF000 = 0xD000) := by decide

set_option maxRecDepth 4000 in
theorem witness_DecodeOfFamiliesFiveEightNine :
    ((0x5FF0 : Word) &&& 0xF00F = 0x5000) ∧ ((0x5001 : Word) &&& 0xF000 = 0x5000 ∧ (0x5001 : Word) &&& 0x000F ≠ 0x0000) ∧
    ((0x9000 : Word) &&& 0xF00F = 0x9000) ∧ ((0x912F : Word) &&& 0xF000 = 0x9000 ∧ (0x912F : Word) &&& 0x000F ≠ 0x0000) ∧
    ((0x8FF0 : Word) &&& 0xF00F = 0x8000) ∧ ((0x8001 : Word) &&& 0xF00F = 0x8001) ∧
    ((0x8FF2 : Word) &&& 0xF00F = 0x8002) ∧ ((0x8003 : Word) &&& 0xF00F = 0x8003) ∧
    ((0x8FF4 : Word) &&& 0xF00F = 0x8004) ∧ ((0x8005 : Word) &&& 0xF00F = 0x8005) ∧
    ((0x8FF6 : Word) &&& 0xF00F = 0x8006) ∧ ((0x8007 : Word) &&& 0xF00F = 0x8007) ∧
    ((0x8FFE : Word) &&& 0xF00F = 0x800E) ∧
    ((0x8008 : Word) &&& 0xF000 = 0x8000 ∧ 0x0008 ≤ (0x8008 : Word) &&& 0x000F ∧ (0x8008 : Word) &&& 0x000F ≠ 0x000E) ∧
    ((0x800F : Word) &&& 0xF000 = 0x8000 ∧ 0x0008 ≤ (0x800F : Word) &&& 0x000F ∧ (0x800F : Word) &&& 0x000F ≠ 0x000E) := by
  decide

theorem witness_DecodeOfFamiliesEAndF :
    ((0xEF9E : Word) &&& 0xF0FF = 0xE09E) ∧ ((0xE0A1 : Word) &&& 0xF0FF = 0xE0A1) ∧
    ((0xE09F : Word) &&& 0xF000 = 0xE000 ∧ (0xE09F : Word) &&& 0x00FF ∉ [(0x9E : Word), 0xA1]) ∧
    ((0xFF07 : Word) &&& 0xF0FF = 0xF007) ∧ ((0xF00A : Word) &&& 0xF0FF = 0xF00A) ∧
    ((0xFF15 : Word) &&& 0xF0FF = 0xF015) ∧ ((0xF018 : Word) &&& 0xF0FF = 0xF018) ∧
    ((0xFF1E : Word) &&& 0xF0FF = 0xF01E) ∧ ((0xF029 : Word) &&& 0xF0FF = 0xF029) ∧
    ((0xFF33 : Word) &&& 0xF0FF = 0xF033) ∧ ((0xF055 : Word) &&& 0xF0FF = 0xF055) ∧
    ((0xFF65 : Word) &&& 0xF0FF = 0xF065) ∧
    ((0xFFFF : Word) &&& 0xF000 = 0xF000 ∧
      (0xFFFF : Word) &&& 0x00FF ∉ [(0x07 : Word), 0x0A, 0x15, 0x18, 0x1E, 0x29, 0x33, 0x55, 0x65]) := by decide

theorem witness_PatternsAreDisjointAndComplete :
    (0x8124 : Word) &&& (opcodeRows.getD 13 (0, 0)).1 = (opcodeRows.getD 13 (0, 0)).2 ∧
    decodeWord 0x01E0 = none ∧
    opcodeRows.all (fun row => (0x01E0 : Word) &&& row.1 != row.2) = true := by decide

theorem witness_StepRunsTheFetchedInstruction :
    FetchesWord (boot [0x60, 0x01]) 0x6001 ∧ decodeWord 0x6001 = some (.ldVxByte 0 1) := ⟨boot_fetches.1, by decide⟩

/-- A halted state: a return on an empty stack. -/
def haltedState : State := run 0x00EE State.reset

theorem witness_HaltedAndStalledStepsDoNothing :
    haltedState.fault ≠ none ∧
    ({ State.reset with waitKey := some 2 } : State).fault = none ∧
    (∀ k : Fin 16, ({ State.reset with waitKey := some 2 } : State).key[k] = false) := by decide

theorem witness_KeyWaitResolvesToSmallestKey :
    (setKeyState 7 true (setKeyState 0xA true { State.reset with waitKey := some 2 })).fault = none ∧
    (setKeyState 7 true (setKeyState 0xA true { State.reset with waitKey := some 2 })).waitKey = some 2 ∧
    (setKeyState 7 true (setKeyState 0xA true { State.reset with waitKey := some 2 })).key[(7 : Fin 16)] = true ∧
    (∀ j : Fin 16, j < 7 →
      (setKeyState 7 true (setKeyState 0xA true { State.reset with waitKey := some 2 })).key[j] = false) := by decide

/-- `pc` odd, just below and just above the range (V170, V171, V173, V4). -/
theorem witness_BadPcRaisesPcOutOfRange :
    [(0x201 : Word), 0x1FE, 0x1000, 0xFFF].all (fun pc =>
      ({ State.reset with pc := pc } : State).fault == none && ({ State.reset with pc := pc } : State).waitKey == none &&
      (pc.toNat % 2 == 1 || pc.toNat < 0x200 || 0xFFE < pc.toNat)) = true := by decide

theorem witness_UnknownWordIsAReportedNoOp :
    FetchesWord (boot [0x50, 0x01]) 0x5001 ∧ decodeWord 0x5001 = none := ⟨boot_fetches.2, by decide⟩

/-- A halted step, a raising step and a stall; a completing step and a resolution. -/
theorem witness_TimersTickExactlyInCompletingSteps :
    (step haltedState = .next (nextOf State.reset (step haltedState)) ∧ haltedState.fault ≠ none) ∧
    (step (boot [0x00, 0xEE]) = .next (nextOf State.reset (step (boot [0x00, 0xEE]))) ∧
      (nextOf State.reset (step (boot [0x00, 0xEE]))).fault ≠ none) ∧
    (({ State.reset with waitKey := some 2 } : State).waitKey ≠ none ∧
      ∀ k : Fin 16, ({ State.reset with waitKey := some 2 } : State).key[k] = false) ∧
    ((boot [0x60, 0x01]).fault = none ∧ (nextOf State.reset (step (boot [0x60, 0x01]))).fault = none ∧
      (boot [0x60, 0x01]).waitKey = none) ∧
    ((setKeyState 7 true { State.reset with waitKey := some 2 }).fault = none ∧
      (nextOf State.reset (step (setKeyState 7 true { State.reset with waitKey := some 2 }))).fault = none ∧
      ∃ k : Fin 16, (setKeyState 7 true { State.reset with waitKey := some 2 }).key[k] = true) :=
  ⟨⟨eq_next (by decide), by decide⟩, ⟨eq_next (by decide), by decide⟩, by decide⟩

/-- An instruction that raises, and a fetch that does (both disjuncts of `FaultRecordFitsTheFetchedInstruction`). -/
theorem witness_FaultingStepChangesOnlyTheRecord :
    ((boot [0x00, 0xEE]).fault = none ∧ (nextOf State.reset (step (boot [0x00, 0xEE]))).fault =
      some { cause := .stackUnderflow, pc := 0x200, opcode := some 0x00EE, detail := none }) ∧
    (({ State.reset with pc := 0x1FE } : State).fault = none ∧
      (nextOf State.reset (step { State.reset with pc := 0x1FE })).fault =
        some { cause := .pcOutOfRange, pc := 0x1FE, opcode := none, detail := none }) := by decide

theorem witness_FaultRecordFitsTheFetchedInstruction :
    (boot [0x00, 0xEE]).fault = none ∧
    step (boot [0x00, 0xEE]) = .next (nextOf State.reset (step (boot [0x00, 0xEE]))) ∧
    (nextOf State.reset (step (boot [0x00, 0xEE]))).fault ≠ none := ⟨by decide, eq_next (by decide), by decide⟩

/-- `sp` at 1 and at 16 with its top entry, and at 0. -/
theorem witness_ReturnPopsOrUnderflows :
    ({ State.reset with sp := 1 } : State).sp.val = (0 : Fin 16).val + 1 ∧
    ({ State.reset with sp := 16 } : State).sp.val = (15 : Fin 16).val + 1 ∧ State.reset.sp.val = 0 := by decide

/-- `sp` at 0, at 15 (the last push that succeeds) and at 16. -/
theorem witness_CallPushesOrOverflows :
    State.reset.sp.val = (0 : Fin 16).val ∧ ({ State.reset with sp := 15 } : State).sp.val = (15 : Fin 16).val ∧
    ({ State.reset with sp := 16 } : State).sp.val = 16 := by decide

/-- A jump to 0xFFF: the next fetch is out of range (V4). -/
theorem witness_BadPcFaultsNext :
    exec (.jpAddr 0xFFF) State.reset = .next { State.reset with pc := 0xFFF } ∧
    ({ State.reset with pc := 0xFFF } : State).fault = none ∧ ({ State.reset with pc := 0xFFF } : State).waitKey = none ∧
    ({ State.reset with pc := 0xFFF } : State).pc.toNat % 2 = 1 := ⟨rfl, by decide⟩

theorem witness_CallThenReturnRoundTrip :
    State.reset.sp.val < 16 ∧
    exec (.callAddr 0x300) State.reset = .next (nextOf State.reset (exec (.callAddr 0x300) State.reset)) ∧
    exec .ret (nextOf State.reset (exec (.callAddr 0x300) State.reset)) =
      .next (nextOf State.reset (exec .ret (nextOf State.reset (exec (.callAddr 0x300) State.reset)))) ∧
    (nextOf State.reset (exec .ret (nextOf State.reset (exec (.callAddr 0x300) State.reset)))).pc = 0x202 :=
  ⟨by decide, eq_next (by decide), eq_next (by decide), by decide⟩

/-- The flag clause of AddSetsCarry, SubtractionsSetNotBorrow and ShiftsReadVyAndSetTheBitMovedOut: X other than F. -/
theorem witness_flag_clauses : (0xE : Reg) ≠ VF := by decide

theorem witness_RandomByteIsMasked : (0x0F : Byte)[(4 : Fin 8)] = false := by decide

theorem witness_ReadAfterWrite :
    State.reset.mem.wf = true ∧ (State.reset.mem.write 0x050 1).wf = true ∧ (State.reset.mem.write 0xFFF 1).wf = true := by
  decide

/-- The lowest and the highest place of three digits. -/
theorem witness_DecimalDigitsAreStored :
    (0x50 ≤ (atI 0x050 []).I.toNat ∧ (atI 0x050 []).I.toNat + 2 < 4096) ∧
    (0x50 ≤ (atI 0xFFD []).I.toNat ∧ (atI 0xFFD []).I.toNat + 2 < 4096) := by decide

theorem witness_RegistersAreStored :
    (0x50 ≤ (atI 0x050 []).I.toNat ∧ (atI 0x050 []).I.toNat + (0xF : Reg).val < 4096) ∧
    (0x50 ≤ (atI 0xFFF []).I.toNat ∧ (atI 0xFFF []).I.toNat + (0 : Reg).val < 4096) := by decide

/-- Each clause at its boundary: 0x04F; 0xFFE for three digits; 0xFFF for two registers; 0xFFFF. -/
theorem witness_StoresOutsideRamRaise :
    (atI 0x04F []).I.toNat < 0x50 ∧ 4096 ≤ (atI 0xFFE []).I.toNat + 2 ∧
    4096 ≤ (atI 0xFFF []).I.toNat + (1 : Reg).val ∧ 4096 ≤ (atI 0xFFFF []).I.toNat + (0 : Reg).val := by decide

theorem witness_RegistersAreLoaded :
    (atI 0x000 []).I.toNat + (0xF : Reg).val < 4096 ∧ (atI 0xFFF []).I.toNat + (0 : Reg).val < 4096 ∧
    4096 ≤ (atI 0xFFF []).I.toNat + (1 : Reg).val := by decide

/-- V93. -/
theorem witness_StoredCodeIsFetchedNext :
    (atI 0x202 [(0, 0x60), (1, 0x42)]).I.toNat = (atI 0x202 [(0, 0x60), (1, 0x42)]).pc.toNat + 2 ∧
    0x50 ≤ (atI 0x202 [(0, 0x60), (1, 0x42)]).I.toNat ∧
    (atI 0x202 [(0, 0x60), (1, 0x42)]).I.toNat + (1 : Reg).val < 4096 ∧
    exec (.ldMemVx 1) (atI 0x202 [(0, 0x60), (1, 0x42)]) =
      .next (nextOf State.reset (exec (.ldMemVx 1) (atI 0x202 [(0, 0x60), (1, 0x42)]))) ∧
    (nextOf State.reset (exec (.ldMemVx 1) (atI 0x202 [(0, 0x60), (1, 0x42)]))).fetchWord = 0x6042 :=
  ⟨by decide, by decide, by decide, eq_next (by decide), by decide⟩

/-- No rows at all from any `I`, and the last byte of memory (V112); a covered and an uncovered pixel; a collision. -/
theorem witness_DrawFlipsTheCoveredPixels :
    ((0 : Count).val = 0 ∨ (atI 0xFFFF []).I.toNat + (0 : Count).val ≤ 4096) ∧
    ((1 : Count).val = 0 ∨ (atI 0xFFF []).I.toNat + (1 : Count).val ≤ 4096) ∧
    SpriteCovers (sprite [0x80] []).mem 0x300 0 0 1 0 0 ∧
    ¬ SpriteCovers (sprite [0x80] []).mem 0x300 0 0 1 9 0 := by
  refine ⟨by decide, by decide, ⟨0, 0, by decide⟩, ?_⟩
  rintro ⟨r, col, hr, hc, -, hx, -⟩
  have : (9 : Fin 64).val = 9 := rfl
  omega

/-- V111. -/
theorem witness_DrawPastMemoryRaises : 1 ≤ (2 : Count).val ∧ 4096 < (atI 0xFFF []).I.toNat + (2 : Count).val := by decide

/-- The chain of two draws: a sprite of one lit bit on a blank screen, drawn twice (the hypotheses of
SecondDrawAlwaysCollides too). -/
theorem witness_DrawTwiceRestoresTheScreen :
    (sprite [0x80] []).I.toNat + (1 : Count).val ≤ 4096 ∧
    exec (.drwVxVyNibble 0 1 1) (sprite [0x80] []) =
      .next (nextOf State.reset (exec (.drwVxVyNibble 0 1 1) (sprite [0x80] []))) ∧
    (nextOf State.reset (exec (.drwVxVyNibble 0 1 1) (sprite [0x80] []))).reg VF = 0 ∧
    exec (.drwVxVyNibble 0 1 1) (nextOf State.reset (exec (.drwVxVyNibble 0 1 1) (sprite [0x80] []))) =
      .next (nextOf State.reset
        (exec (.drwVxVyNibble 0 1 1) (nextOf State.reset (exec (.drwVxVyNibble 0 1 1) (sprite [0x80] []))))) :=
  ⟨by decide, eq_next (by decide), by decide, eq_next (by decide)⟩

/-- Key 15, the largest there is, and 16. -/
theorem witness_KeySkipsTestTheKey :
    ((withRegs [(5, 15)]).reg 5).toNat = (15 : Fin 16).val ∧ 15 < ((withRegs [(5, 16)]).reg 5).toNat := by decide

/-- FX15 and then FX07. -/
theorem witness_TimerReadBackIsOneLower :
    FetchesWord (boot [0xF0, 0x15, 0xF3, 0x07]) 0xF015 ∧
    decodeWord 0xF015 = some (.ldDTVx 0) ∧ decodeWord 0xF307 = some (.ldVxDT 3) ∧
    step (boot [0xF0, 0x15, 0xF3, 0x07]) = .next (nextOf State.reset (step (boot [0xF0, 0x15, 0xF3, 0x07]))) ∧
    FetchesWord (nextOf State.reset (step (boot [0xF0, 0x15, 0xF3, 0x07]))) 0xF307 := by
  unfold FetchesWord Fetches
  exact ⟨by decide, by decide, by decide, eq_next (by decide), by decide⟩

theorem witness_LoadProgramCopiesOrRefuses :
    (List.replicate 3584 (0x60 : Byte)).length ≤ 4096 - 512 ∧ 4096 - 512 < (List.replicate 3585 (0x60 : Byte)).length := by
  rw [List.length_replicate, List.length_replicate]
  decide

theorem witness_KeyPortAndFramePort : 15 < 16 ∧ (0 : Fin 16) ≠ 15 := by decide

theorem witness_BootFetchesTheProgramsFirstWord :
    ([] : List Byte).length + 2 ≤ 3584 ∧ (List.replicate 3582 (0x60 : Byte)).length + 2 ≤ 3584 := by
  rw [List.length_replicate]
  decide

/-- A clear of a lit screen; and a port other than `hostInitialize`. -/
theorem witness_OnlyClearAndDrawWriteTheScreen :
    step { boot [0x00, 0xE0] with fb := togglePixel blankScreen 5 6 } =
      .next (nextOf State.reset (step { boot [0x00, 0xE0] with fb := togglePixel blankScreen 5 6 })) ∧
    (nextOf State.reset (step { boot [0x00, 0xE0] with fb := togglePixel blankScreen 5 6 })).fb ≠
      togglePixel blankScreen 5 6 ∧
    PortCall.frameConsumed ≠ .hostInitialize := ⟨eq_next (by decide), by decide⟩

/-- An instruction, and a key wait for VF. -/
theorem witness_OnlyItsWritersChangeVF :
    (step (boot [0x6F, 0x12]) = .next (nextOf State.reset (step (boot [0x6F, 0x12]))) ∧
      (nextOf State.reset (step (boot [0x6F, 0x12]))).reg VF ≠ (boot [0x6F, 0x12]).reg VF) ∧
    (nextOf State.reset (step (setKeyState 7 true { State.reset with waitKey := some VF }))).reg VF ≠
      (setKeyState 7 true { State.reset with waitKey := some VF }).reg VF :=
  ⟨⟨eq_next (by decide), by decide⟩, by decide⟩

/-- I, the stack and `sp`, and the key wait (set, and cleared by a pressed key), each changed by a step. -/
theorem witness_ControlElementsHaveOnlyTheirWriters :
    (nextOf State.reset (step (boot [0xA3, 0x00]))).I ≠ (boot [0xA3, 0x00]).I ∧
    (nextOf State.reset (step (boot [0x23, 0x00]))).stack ≠ (boot [0x23, 0x00]).stack ∧
    (nextOf State.reset (step (boot [0x23, 0x00]))).sp ≠ (boot [0x23, 0x00]).sp ∧
    (nextOf State.reset (step (boot [0xF2, 0x0A]))).waitKey = some 2 ∧
    (nextOf State.reset (step (setKeyState 7 true { State.reset with waitKey := some 2 }))).waitKey = none := by decide

theorem witness_FontRegionIsImmutable :
    ((boot [0xF0, 0x55]).mem.wf = true ∧
      applyEvent .step (boot [0xF0, 0x55]) = .next (nextOf State.reset (step (boot [0xF0, 0x55])))) ∧
    (nextOf State.reset (step { boot [0xF0, 0x55] with I := 0x300, V := State.reset.V.set 0 7 })).mem ≠
      (boot [0xF0, 0x55]).mem := ⟨⟨by decide, eq_next (by decide)⟩, by decide⟩

theorem witness_HaltEndsOnlyByInitialize :
    haltedState.fault = some { cause := .stackUnderflow, pc := 0x200, opcode := some 0x00EE, detail := none } ∧
    HostEvent.step ≠ .port .hostInitialize ∧
    applyEvent .step haltedState = .next (nextOf State.reset (applyEvent .step haltedState)) :=
  ⟨by decide, by decide, eq_next (by decide)⟩

theorem witness_OnlyKeyInstructionsReadTheKeypad :
    (boot [0x60, 0x01]).waitKey = none ∧
    (∀ op x, FetchesWord (boot [0x60, 0x01]) op → decodeWord op ≠ some (.skpVx x) ∧ decodeWord op ≠ some (.sknpVx x)) ∧
    step (boot [0x60, 0x01]) = .next (nextOf State.reset (step (boot [0x60, 0x01]))) := by
  refine ⟨by decide, fun op x h => ?_, eq_next (by decide)⟩
  have hop : op = 0x6001 := h.2.trans (by decide)
  have hd : decodeWord 0x6001 = some (.ldVxByte 0 1) := by decide
  rw [hop, hd]
  simp

theorem witness_SoundTimerAndDirtyReachOnlyTheirOutputs :
    step (boot [0x60, 0x01]) = .next (nextOf State.reset (step (boot [0x60, 0x01]))) := eq_next (by decide)

/-- A state inside a called subroutine, with the invariant: one return address on the stack. -/
def inSubroutine : State :=
  { boot [0x00, 0xEE] with sp := 1, stack := State.reset.stack.set 0 0x202, V := State.reset.V.set 3 9 }

theorem inSubroutine_inv : Inv inSubroutine := by
  refine ⟨by decide, by decide, by decide, by decide, by decide, by decide, ?_, ?_⟩
  · intro r h
    cases h
  · intro d h
    cases h

theorem witness_EveryHostCallKeepsTheInvariant :
    Inv inSubroutine ∧ step inSubroutine = .next (nextOf State.reset (step inSubroutine)) :=
  ⟨inSubroutine_inv, eq_next (by decide)⟩

theorem witness_ReturnTargetsAreAligned :
    Inv inSubroutine ∧ exec .ret inSubroutine = .next (nextOf State.reset (exec .ret inSubroutine)) ∧
    (nextOf State.reset (exec .ret inSubroutine)).fault = none :=
  ⟨inSubroutine_inv, eq_next (by decide), by decide⟩

end Sys2Proof.Tests
end

section
/-! PROOFS. The memory statements (spec/20_memory.md R69): the equations of the `loadProgram` port, and what memory reads
as after it. -/

namespace Sys2Proof.Machine

/-! ### The `loadProgram` port -/

theorem programFits_iff (bytes : List Byte) : programFits bytes = true ↔ bytes.length ≤ 3584 :=
  decide_eq_true_iff

/-- R69: an accepted program is written from 0x200; memory is the only field that changes. -/
theorem loadProgram_of_length_le {bytes : List Byte} (h : bytes.length ≤ 3584) (s : State) :
    loadProgram bytes s = (.success, { s with mem := s.mem.writeAll 512 bytes }) :=
  if_pos ((programFits_iff bytes).mpr h)

/-- R69: a program that is too long is refused whole. -/
theorem loadProgram_of_lt_length {bytes : List Byte} (h : 3584 < bytes.length) (s : State) :
    loadProgram bytes s = (.programTooLarge, s) :=
  if_neg (mt (programFits_iff bytes).mp (by omega))

/-! ### Reads after a range of writes -/

/-- Inside the written range, memory reads as the bytes written. -/
theorem Memory.read_writeAll_add (m : Memory) (a : Nat) {bytes : List Byte} {k : Nat} (h : k < bytes.length) :
    (m.writeAll a bytes).read (a + k) = bytes[k] := by
  have hin : a ≤ a + k ∧ a + k - a < bytes.length := by omega
  rw [Memory.read_writeAll, dif_pos hin]
  simp only [Nat.add_sub_cancel_left]

/-- Below the written range and above it, memory reads as before. -/
theorem Memory.read_writeAll_of_outside (m : Memory) {a b : Nat} {bytes : List Byte}
    (h : b < a ∨ a + bytes.length ≤ b) : (m.writeAll a bytes).read b = m.read b := by
  have hout : ¬ (a ≤ b ∧ b - a < bytes.length) := by omega
  rw [Memory.read_writeAll, dif_neg hout]

/-- Settles O47: the port's two equations, and the reads inside and outside the written range. -/
theorem loadProgramCopiesOrRefuses : Obligations.LoadProgramCopiesOrRefuses := by
  intro bytes s
  refine ⟨fun hfits => ?_, fun hlong => loadProgram_of_lt_length hlong s⟩
  rw [loadProgram_of_length_le hfits s]
  exact ⟨rfl, fun k => s.mem.read_writeAll_add 512 k.isLt, fun _ ha => s.mem.read_writeAll_of_outside ha, rfl⟩

end Sys2Proof.Machine
end

section
/-! PROOFS. The decoding statements (spec/30_encoding.md R81, R84 to R90): the fields as the statements write them, what a
mask of the opcode table fixes, and the decoder's equations for the families of more than one instruction. -/

namespace Sys2Proof

/-! ### Fields as numbers of the word (R81) -/

section
variable (op : Word)

theorem ofNat_eq_opX : Fin.ofNat 16 (op.toNat / 256) = opX op :=
  Fin.ext (opX_val op).symm

theorem ofNat_eq_opY : Fin.ofNat 16 (op.toNat / 16) = opY op :=
  Fin.ext (opY_val op).symm

theorem ofNat_eq_opN : Fin.ofNat 16 op.toNat = opN op :=
  Fin.ext (opN_val op).symm

theorem ofNat_eq_opNN : BitVec.ofNat 8 op.toNat = opNN op :=
  BitVec.eq_of_toNat_eq (by rw [BitVec.toNat_ofNat, opNN_toNat])

theorem ofNat_eq_opNNN : BitVec.ofNat 12 op.toNat = opNNN op :=
  BitVec.eq_of_toNat_eq (by rw [BitVec.toNat_ofNat, opNNN_toNat])

end

/-! ### What a mask fixes -/

section
variable {op w : Word}

/-- Mask 0xF000 fixes the family. -/
theorem opFamily_of_and_F000 (h : op &&& 0xF000 = w) : opFamily op = w.toNat / 4096 := by
  rw [← h, toNat_and_F000, opFamily_eq]
  omega

/-- Mask 0xF0FF fixes the family. -/
theorem opFamily_of_and_F0FF (h : op &&& 0xF0FF = w) : opFamily op = w.toNat / 4096 := by
  rw [← h, toNat_and_F0FF, opFamily_eq]
  omega

/-- Mask 0xF0FF fixes the low byte. -/
theorem opNN_of_and_F0FF (h : op &&& 0xF0FF = w) : (opNN op).toNat = w.toNat % 256 := by
  rw [← h, toNat_and_F0FF, opNN_toNat]
  omega

/-- The low byte as the statements on Unknown words mask it. -/
theorem and_00FF_eq_iff : op &&& 0x00FF = w ↔ (opNN op).toNat = w.toNat := by
  rw [← BitVec.toNat_inj, toNat_and_00FF, opNN_toNat]

end

/-! ### The decoder, family by family (R84) -/

section
variable {op : Word}

theorem decodeWord_family0 (h : opFamily op = 0x0) : decodeWord op = decodeFamily0 op := by
  simp only [decodeWord, h]

theorem decodeWord_familyE (h : opFamily op = 0xE) : decodeWord op = decodeFamilyE op := by
  simp only [decodeWord, h]

theorem decodeWord_familyF (h : opFamily op = 0xF) : decodeWord op = decodeFamilyF op := by
  simp only [decodeWord, h]

/-- R85: family 0x0 has no third instruction. -/
theorem decodeFamily0_of_ne (hcls : op ≠ 0x00E0) (hret : op ≠ 0x00EE) : decodeFamily0 op = none := by
  rw [decodeFamily0, if_neg hcls, if_neg hret]

/-- R89: family 0xE has two low bytes. -/
theorem decodeFamilyE_of_notMem (h : op &&& 0x00FF ∉ [(0x9E : Word), 0xA1]) : decodeFamilyE op = none := by
  simp only [List.mem_cons, List.not_mem_nil, or_false, not_or, and_00FF_eq_iff] at h
  unfold decodeFamilyE
  split
  case h_3 => rfl
  all_goals simp_all

/-- R90: family 0xF has nine low bytes. -/
theorem decodeFamilyF_of_notMem
    (h : op &&& 0x00FF ∉ [(0x07 : Word), 0x0A, 0x15, 0x18, 0x1E, 0x29, 0x33, 0x55, 0x65]) : decodeFamilyF op = none := by
  simp only [List.mem_cons, List.not_mem_nil, or_false, not_or, and_00FF_eq_iff] at h
  unfold decodeFamilyF
  split
  case h_10 => rfl
  all_goals simp_all

end

/-- Settles O3: mask 0xF000 fixes the family, and the decoder's arm of a whole family is the instruction; in family 0 the
two words are compared whole. -/
theorem decodeOfWholeFamilies : Obligations.DecodeOfWholeFamilies := by
  intro op
  simp only [and_FFFF, ofNat_eq_opX, ofNat_eq_opY, ofNat_eq_opN, ofNat_eq_opNN, ofNat_eq_opNNN]
  refine ⟨?cls, ?ret, ?unknown0, ?_, ?_, ?_, ?_, ?_, ?_, ?_, ?_, ?_, ?_⟩
  case cls => rintro rfl; rfl
  case ret => rintro rfl; rfl
  case unknown0 =>
    intro h hcls hret
    rw [decodeWord_family0 (opFamily_of_and_F000 h), decodeFamily0_of_ne hcls hret]
  all_goals
    intro h
    simp [decodeWord, opFamily_of_and_F000 h]

/-- Settles O5: mask 0xF0FF fixes the family and the low byte, which choose the decoder's arm; a low byte without an arm is
Unknown. -/
theorem decodeOfFamiliesEAndF : Obligations.DecodeOfFamiliesEAndF := by
  intro op
  simp only [ofNat_eq_opX]
  refine ⟨?_, ?_, ?unknownE, ?_, ?_, ?_, ?_, ?_, ?_, ?_, ?_, ?_, ?unknownF⟩
  case unknownE =>
    intro h hnn
    rw [decodeWord_familyE (opFamily_of_and_F000 h), decodeFamilyE_of_notMem hnn]
  case unknownF =>
    intro h hnn
    rw [decodeWord_familyF (opFamily_of_and_F000 h), decodeFamilyF_of_notMem hnn]
  all_goals
    intro h
    simp [decodeWord, decodeFamilyE, decodeFamilyF, opFamily_of_and_F0FF h, opNN_of_and_F0FF h]

end Sys2Proof
end

section
/-! PROOFS. The control statements (spec/41_control_stack.md R121): the word of a jump, its meaning and its frame, and what
a bad `pc` does at the next fetch. -/

namespace Sys2Proof

/-- A word of a family and NNN, written as the statements write it: as a sum. -/
theorem ofNat_eq_encodeNNN (f : BitVec 4) (nnn : Addr) :
    BitVec.ofNat 16 (f.toNat * 0x1000 + nnn.toNat) = encodeNNN f nnn := by
  rw [← encodeNNN_toNat, BitVec.ofNat_toNat, BitVec.setWidth_eq]

/-- R86, family 0x1. -/
theorem decodeWord_encodeNNN_family1 (nnn : Addr) : decodeWord (encodeNNN 0x1 nnn) = some (.jpAddr nnn) := by
  have hfamily : opFamily (encodeNNN 0x1 nnn) = 0x1 := opFamily_encodeNNN 0x1 nnn
  simp only [decodeWord, hfamily, opNNN_encodeNNN]

namespace Machine

theorem zextAddr_toNat (nnn : Addr) : (zextAddr nnn).toNat = nnn.toNat :=
  BitVec.toNat_setWidth_of_le (by decide)

theorem exec_jpAddr (nnn : Addr) (s : State) : exec (.jpAddr nnn) s = .next (s.setPc (zextAddr nnn)) := rfl

/-- `pc` is outside every frame, so writing it keeps whatever a frame names. -/
theorem keeps_setPc (parts : List Part) (regs : List Reg) (addrs : List Nat) (s : State) (w : Word) :
    Keeps parts regs addrs s (s.setPc w) := by
  simp [Keeps, State.reg]

/-- R97 for every state: none escapes the fetch check, whatever instruction wrote its `pc` (decision D5). -/
theorem badPcFaultsNext (t : State) : BadPcFaultsNext t := by
  intro hfault hwait hbad
  have hpc : pcOk t.pc = false := by
    rw [Bool.eq_false_iff, ne_eq, pcOk_iff]
    omega
  exact ⟨_, step_badFetch hfault hwait hpc, rfl⟩

/-- Settles O18: the word is the encoder's for family 0x1, and the meaning only writes `pc`. -/
theorem jumpGoesToTheAddress : Obligations.JumpGoesToTheAddress := by
  intro nnn s
  refine ⟨?decodes, s.setPc (zextAddr nnn), exec_jpAddr nnn s, zextAddr_toNat nnn, keeps_setPc [] [] [] s _,
    badPcFaultsNext _⟩
  case decodes => exact (congrArg decodeWord (ofNat_eq_encodeNNN 0x1 nnn)).trans (decodeWord_encodeNNN_family1 nnn)

end Machine

end Sys2Proof
end

section
/-! PROOFS. The ALU statements on the forms that set no flag (spec/42_register_alu.md R152 to R157): the words of families
0x6 to 0x8 as sums, the round trip through the decoder, and what writing V[X] alone does and keeps. -/

namespace Sys2Proof

/-! ### Words as sums -/

/-- A word of a family, X and NN, written as the statements write it. -/
theorem ofNat_eq_encodeXNN (f : BitVec 4) (x : Reg) (nn : Byte) :
    BitVec.ofNat 16 (f.toNat * 0x1000 + 0x100 * x.val + nn.toNat) = encodeXNN f x nn := by
  rw [Nat.mul_comm 0x100, ← encodeXNN_toNat, BitVec.ofNat_toNat, BitVec.setWidth_eq]

/-- A word of a family, X, Y and the low nibble, written as the statements write it: the digits they fix in front. -/
theorem ofNat_eq_encodeXYN (f n : BitVec 4) (x y : Reg) :
    BitVec.ofNat 16 (f.toNat * 0x1000 + n.toNat + 0x100 * x.val + 0x10 * y.val) = encodeXYN f x y n := by
  have hsum : f.toNat * 0x1000 + n.toNat + 0x100 * x.val + 0x10 * y.val = (encodeXYN f x y n).toNat := by
    rw [encodeXYN_toNat]
    omega
  rw [hsum, BitVec.ofNat_toNat, BitVec.setWidth_eq]

/-- R81 to R90: the fields of an instruction's word are the ones it was encoded from, and they choose its arm. -/
theorem decodeWord_encode (i : Instr) : decodeWord (encode i) = some i := by
  cases i
  case cls => rfl
  case ret => rfl
  all_goals simp [encode, decodeWord, decodeFamily8, decodeFamilyE, decodeFamilyF, nibble]

theorem decodeWord_of_eq_encode {op : Word} {i : Instr} (h : op = encode i) : decodeWord op = some i :=
  h ▸ decodeWord_encode i

namespace Machine

/-! ### Writing V[X] alone -/

section
variable (x y : Reg) (nn b : Byte) (s : State)

theorem exec_ldVxByte : exec (.ldVxByte x nn) s = .next (s.setReg x nn).nextPc := rfl

theorem exec_addVxByte : exec (.addVxByte x nn) s = .next (s.setReg x (s.reg x + nn)).nextPc := rfl

theorem exec_ldVxVy : exec (.ldVxVy x y) s = .next (s.setReg x (s.reg y)).nextPc := rfl

theorem exec_orVxVy : exec (.orVxVy x y) s = .next (s.setReg x (s.reg x ||| s.reg y)).nextPc := rfl

theorem exec_andVxVy : exec (.andVxVy x y) s = .next (s.setReg x (s.reg x &&& s.reg y)).nextPc := rfl

theorem exec_xorVxVy : exec (.xorVxVy x y) s = .next (s.setReg x (s.reg x ^^^ s.reg y)).nextPc := rfl

theorem State.reg_nextPc_setReg_self : (s.setReg x b).nextPc.reg x = b := by
  rw [State.reg_nextPc, State.reg_setReg, if_pos rfl]

/-- The frame of a form that sets no flag: VF is kept unless it is the destination. -/
theorem keeps_nextPc_setReg : Keeps [] [x] [] s (s.setReg x b).nextPc := by
  simp +contextual [Keeps]

end

/-- Settles O23: each word is the encoder's, and each meaning writes V[X] alone. -/
theorem immediateLoadAndAdd : Obligations.ImmediateLoadAndAdd := by
  intro x nn s
  refine ⟨⟨decodeWord_of_eq_encode (ofNat_eq_encodeXNN 0x6 x nn), _, exec_ldVxByte x nn s, ?load, rfl,
      keeps_nextPc_setReg x _ s⟩,
    ⟨decodeWord_of_eq_encode (ofNat_eq_encodeXNN 0x7 x nn), _, exec_addVxByte x nn s, ?add, rfl,
      keeps_nextPc_setReg x _ s⟩⟩
  case load => exact s.reg_nextPc_setReg_self x nn
  case add => rw [State.reg_nextPc_setReg_self, BitVec.toNat_add]

/-- Settles O24: each word is the encoder's, and each meaning writes V[X] alone, with a value known bit by bit. -/
theorem moveAndLogicWriteOnlyVx : Obligations.MoveAndLogicWriteOnlyVx := by
  intro x y s
  refine ⟨⟨decodeWord_of_eq_encode (ofNat_eq_encodeXYN 0x8 0x0 x y), _, exec_ldVxVy x y s, ?move, rfl,
      keeps_nextPc_setReg x _ s⟩,
    ⟨decodeWord_of_eq_encode (ofNat_eq_encodeXYN 0x8 0x1 x y), _, exec_orVxVy x y s, fun b => ?or, rfl,
      keeps_nextPc_setReg x _ s⟩,
    ⟨decodeWord_of_eq_encode (ofNat_eq_encodeXYN 0x8 0x2 x y), _, exec_andVxVy x y s, fun b => ?and, rfl,
      keeps_nextPc_setReg x _ s⟩,
    ⟨decodeWord_of_eq_encode (ofNat_eq_encodeXYN 0x8 0x3 x y), _, exec_xorVxVy x y s, fun b => ?xor, rfl,
      keeps_nextPc_setReg x _ s⟩⟩
  case move => exact s.reg_nextPc_setReg_self x _
  case or => rw [State.reg_nextPc_setReg_self]; exact BitVec.getElem_or b.isLt
  case and => rw [State.reg_nextPc_setReg_self]; exact BitVec.getElem_and b.isLt
  case xor => rw [State.reg_nextPc_setReg_self]; exact BitVec.getElem_xor b.isLt

end Machine

end Sys2Proof
end

section
/-! PROOFS. The index statements (spec/43_index_memory.md R180, R181): the words of ANNN and FX1E, and what writing I alone
does and keeps. -/

namespace Sys2Proof

/-- A word of a family, X and NN, written with the digits it fixes in front, as `ofNat_eq_encodeXYN` has them. -/
theorem ofNat_eq_encodeXNN_fixedFirst (f : BitVec 4) (x : Reg) (nn : Byte) :
    BitVec.ofNat 16 (f.toNat * 0x1000 + nn.toNat + 0x100 * x.val) = encodeXNN f x nn := by
  rw [Nat.add_right_comm, ofNat_eq_encodeXNN]

namespace Machine

theorem zextByte_toNat (b : Byte) : (zextByte b).toNat = b.toNat :=
  BitVec.toNat_setWidth_of_le (by decide)

/-! ### Writing I alone -/

/-- The frame of a form that writes I: every register is kept, VF with them. -/
theorem keeps_setIndex (s : State) (w : Word) : Keeps [.I] [] [] s (s.setIndex w) := by
  simp [Keeps, State.reg]

theorem exec_ldIAddr (nnn : Addr) (s : State) : exec (.ldIAddr nnn) s = .next (s.setIndex (zextAddr nnn)) := rfl

theorem exec_addIVx (x : Reg) (s : State) : exec (.addIVx x) s = .next (s.setIndex (s.I + zextByte (s.reg x))) := rfl

/-- Settles O30: each word is the encoder's, and each meaning writes I alone, the sum being one of 16-bit words. -/
theorem indexLoadAndAdd : Obligations.IndexLoadAndAdd := by
  refine ⟨fun nnn s => ⟨decodeWord_of_eq_encode (ofNat_eq_encodeNNN 0xA nnn), _, exec_ldIAddr nnn s, ?load,
      s.setIndex_pc _, keeps_setIndex s _⟩,
    fun x s => ⟨decodeWord_of_eq_encode (ofNat_eq_encodeXNN_fixedFirst 0xF x 0x1E), _, exec_addIVx x s, ?add,
      s.setIndex_pc _, keeps_setIndex s _⟩⟩
  case load => rw [State.setIndex_I, zextAddr_toNat]
  case add => rw [State.setIndex_I, BitVec.toNat_add, zextByte_toNat]

end Machine

end Sys2Proof
end

section
/-! PROOFS. The display statement on 00E0 (spec/44_display.md R202): its meaning, and the frame of a form that writes the
framebuffer and `dirty`. -/

namespace Sys2Proof.Machine

section
variable (s : State)

theorem exec_cls : exec .cls s = .next ({ s with fb := blankScreen, dirty := true } : State).nextPc := rfl

/-- The frame of writing the framebuffer and `dirty`, whatever is drawn: every register is kept, VF with them. -/
theorem keeps_nextPc_drawn (fb : Framebuffer) (d : Bool) :
    Keeps [.fb, .dirty] [] [] s ({ s with fb := fb, dirty := d } : State).nextPc := by
  simp [Keeps, State.reg]

end

/-- Settles O37: the word is the encoder's, and the meaning writes the blank screen and `dirty` alone, whatever the screen
was. -/
theorem clearTurnsAllPixelsOff : Obligations.ClearTurnsAllPixelsOff := by
  refine ⟨decodeWord_encode .cls, fun s => ⟨_, exec_cls s, ?blank, ?dirty, State.nextPc_pc _,
    keeps_nextPc_drawn s blankScreen true⟩⟩
  case blank => exact pixel_blankScreen
  case dirty => exact State.nextPc_dirty _

end Sys2Proof.Machine
end

section
/-! PROOFS. The encoding statements (spec/30_encoding.md R80 to R91): the decoder and the encoder are inverse to each other,
families 0x5, 0x8 and 0x9, and the rows of the opcode table. -/

namespace Sys2Proof

/-! ### Decoding an encoded instruction -/

/-- Two bytes that spell a word decode as that word does, whatever follows them. -/
theorem decodeBytes_of_decodeWord {op : Word} {i : Instr} (h : decodeWord op = some i) (rest : List Byte) :
    decodeBytes (highByte op :: lowByte op :: rest) = .instr i rest := by
  simp only [decodeBytes, wordOfBytes_highByte_lowByte, h]

/-- Settles O1: the round trip of a word, and that word as the two bytes of memory. -/
theorem decodeOfEncodeIsTheInstruction : Obligations.DecodeOfEncodeIsTheInstruction :=
  fun i rest => ⟨decodeWord_encode i, decodeBytes_of_decodeWord (decodeWord_encode i) rest⟩

/-! ### Encoding a decoded word, family by family -/

/-- A word whose low byte is fixed is its family, X and that byte. -/
theorem encodeXNN_of_fixed_byte (op : Word) (f : BitVec 4) (nn : Byte) (hf : opFamily op = f.toNat)
    (hnn : (opNN op).toNat = nn.toNat) : encodeXNN f (opX op) nn = op := by
  rw [← BitVec.eq_of_toNat_eq hnn, encodeXNN_of_fields op f hf]

section
variable {op : Word} {i : Instr}

theorem encode_of_decodeFamily0 (h : decodeFamily0 op = some i) : encode i = op := by
  unfold decodeFamily0 at h
  split at h
  · next hop => cases h; exact hop.symm
  · split at h
    · next hop => cases h; exact hop.symm
    · cases h

/-- R88: in family 0x8 the low nibble is the one the instruction fixes. -/
theorem encode_of_decodeFamily8 (hf : opFamily op = 0x8) (h : decodeFamily8 op = some i) : encode i = op := by
  unfold decodeFamily8 at h
  split at h <;> cases h <;> exact encodeXYN_of_fields op 0x8 _ hf ‹_›

/-- R89: in family 0xE the low byte is the one the instruction fixes. -/
theorem encode_of_decodeFamilyE (hf : opFamily op = 0xE) (h : decodeFamilyE op = some i) : encode i = op := by
  unfold decodeFamilyE at h
  split at h <;> cases h <;> exact encodeXNN_of_fixed_byte op 0xE _ hf ‹_›

/-- R90: in family 0xF the low byte is the one the instruction fixes. -/
theorem encode_of_decodeFamilyF (hf : opFamily op = 0xF) (h : decodeFamilyF op = some i) : encode i = op := by
  unfold decodeFamilyF at h
  split at h <;> cases h <;> exact encodeXNN_of_fixed_byte op 0xF _ hf ‹_›

/-- The low nibble as families 0x5 and 0x9 test it. -/
theorem opN_val_eq_zero (h : opN op = 0) : (opN op).val = (0x0 : BitVec 4).toNat := by
  rw [h]; rfl

end

/-- Settles O2: the arm of the word's family gives the fields back; in families 0x5, 0x8, 0x9, 0xE and 0xF the arm also
fixes the low digits. -/
theorem decodedWordIsTheEncoding : Obligations.DecodedWordIsTheEncoding := by
  intro op i h
  unfold decodeWord at h
  split at h
  case h_1 => exact encode_of_decodeFamily0 h
  case h_2 hf => cases h; exact encodeNNN_of_fields op 0x1 hf
  case h_3 hf => cases h; exact encodeNNN_of_fields op 0x2 hf
  case h_4 hf => cases h; exact encodeXNN_of_fields op 0x3 hf
  case h_5 hf => cases h; exact encodeXNN_of_fields op 0x4 hf
  case h_6 hf =>
    split at h <;> cases h
    exact encodeXYN_of_fields op 0x5 0x0 hf (opN_val_eq_zero ‹_›)
  case h_7 hf => cases h; exact encodeXNN_of_fields op 0x6 hf
  case h_8 hf => cases h; exact encodeXNN_of_fields op 0x7 hf
  case h_9 hf => exact encode_of_decodeFamily8 hf h
  case h_10 hf =>
    split at h <;> cases h
    exact encodeXYN_of_fields op 0x9 0x0 hf (opN_val_eq_zero ‹_›)
  case h_11 hf => cases h; exact encodeNNN_of_fields op 0xA hf
  case h_12 hf => cases h; exact encodeNNN_of_fields op 0xB hf
  case h_13 hf => cases h; exact encodeXNN_of_fields op 0xC hf
  case h_14 hf => cases h; exact encodeXYN_of_fields op 0xD (nibble (opN op)) hf rfl
  case h_15 hf => exact encode_of_decodeFamilyE hf h
  case h_16 hf => exact encode_of_decodeFamilyF hf h
  case h_17 => cases h

/-! ### Families 0x5, 0x8 and 0x9 -/

section
variable {op w : Word}

/-- Mask 0xF00F fixes the family. -/
theorem opFamily_of_and_F00F (h : op &&& 0xF00F = w) : opFamily op = w.toNat / 4096 := by
  rw [← h, toNat_and_F00F, opFamily_eq]
  omega

/-- Mask 0xF00F fixes the low nibble. -/
theorem opN_of_and_F00F (h : op &&& 0xF00F = w) : (opN op).val = w.toNat % 16 := by
  rw [← h, toNat_and_F00F, opN_val]
  omega

theorem toNat_and_000F_eq_opN : (op &&& 0x000F).toNat = (opN op).val := by
  rw [toNat_and_000F, opN_val]

theorem opN_ne_zero_of_and_000F (h : op &&& 0x000F ≠ 0x0000) : opN op ≠ 0 := by
  intro hn
  exact h (BitVec.eq_of_toNat_eq (by rw [toNat_and_000F_eq_opN, hn]; rfl))

/-- R88: in family 0x8 the low nibbles 8 to D and F have no instruction. -/
theorem decodeFamily8_of_le (hle : 0x0008 ≤ op &&& 0x000F) (hne : op &&& 0x000F ≠ 0x000E) :
    decodeFamily8 op = none := by
  have hle' : 8 ≤ (opN op).val := by rw [← toNat_and_000F_eq_opN]; exact hle
  have hne' : (opN op).val ≠ 14 := by
    intro hn
    exact hne (BitVec.eq_of_toNat_eq (by rw [toNat_and_000F_eq_opN, hn]; rfl))
  unfold decodeFamily8
  split
  case h_10 => rfl
  all_goals omega

end

/-- Settles O4: mask 0xF00F fixes the family and the low nibble, which choose the decoder's arm; a low nibble without an
arm is Unknown. -/
theorem decodeOfFamiliesFiveEightNine : Obligations.DecodeOfFamiliesFiveEightNine := by
  intro op
  simp only [ofNat_eq_opX, ofNat_eq_opY]
  refine ⟨?five, ?unknown5, ?nine, ?unknown9, ?_, ?_, ?_, ?_, ?_, ?_, ?_, ?_, ?_, ?unknown8⟩
  case unknown5 => intro h hn; simp [decodeWord, opFamily_of_and_F000 h, opN_ne_zero_of_and_000F hn]
  case unknown9 => intro h hn; simp [decodeWord, opFamily_of_and_F000 h, opN_ne_zero_of_and_000F hn]
  case unknown8 =>
    intro h hle hne
    simp [decodeWord, opFamily_of_and_F000 h, decodeFamily8_of_le hle hne]
  case five | nine =>
    intro h
    simp [decodeWord, opFamily_of_and_F00F h, Fin.ext_iff, opN_of_and_F00F h]
  all_goals
    intro h
    simp [decodeWord, decodeFamily8, opFamily_of_and_F00F h, opN_of_and_F00F h]

/-! ### The rows of the opcode table (R91) -/

section
open Laws.EncodeMatchesRow

/-- An instruction's word matches the row of that instruction. -/
theorem encode_matches_row (i : Instr) : Statement i := by
  cases i
  case cls => exact cls
  case ret => exact ret
  case jpAddr => exact jpAddr _
  case callAddr => exact callAddr _
  case seVxByte => exact seVxByte _ _
  case sneVxByte => exact sneVxByte _ _
  case seVxVy => exact seVxVy _ _
  case ldVxByte => exact ldVxByte _ _
  case addVxByte => exact addVxByte _ _
  case ldVxVy => exact ldVxVy _ _
  case orVxVy => exact orVxVy _ _
  case andVxVy => exact andVxVy _ _
  case xorVxVy => exact xorVxVy _ _
  case addVxVy => exact addVxVy _ _
  case subVxVy => exact subVxVy _ _
  case shrVxVy => exact shrVxVy _ _
  case subnVxVy => exact subnVxVy _ _
  case shlVxVy => exact shlVxVy _ _
  case sneVxVy => exact sneVxVy _ _
  case ldIAddr => exact ldIAddr _
  case jpV0Addr => exact jpV0Addr _
  case rndVxByte => exact rndVxByte _ _
  case drwVxVyNibble => exact drwVxVyNibble _ _ _
  case skpVx => exact skpVx _
  case sknpVx => exact sknpVx _
  case ldVxDT => exact ldVxDT _
  case ldVxK => exact ldVxK _
  case ldDTVx => exact ldDTVx _
  case ldSTVx => exact ldSTVx _
  case addIVx => exact addIVx _
  case ldFVx => exact ldFVx _
  case ldBVx => exact ldBVx _
  case ldMemVx => exact ldMemVx _
  case ldVxMem => exact ldVxMem _

/-- A word that matches a row decodes to an instruction of that row: R85 to R90, row by row. -/
theorem exists_decodeWord_of_row (op : Word) (j : Fin 34)
    (h : op &&& (opcodeRows.getD j (0, 0)).1 = (opcodeRows.getD j (0, 0)).2) :
    ∃ i, decodeWord op = some i ∧ row i = j := by
  obtain ⟨hcls, hret, -, h1, h2, h3, h4, h6, h7, hA, hB, hC, hD⟩ := decodeOfWholeFamilies op
  obtain ⟨h5, -, h9, -, h80, h81, h82, h83, h84, h85, h86, h87, h8E, -⟩ := decodeOfFamiliesFiveEightNine op
  obtain ⟨h9E, hA1, -, h07, h0A, h15, h18, h1E, h29, h33, h55, h65, -⟩ := decodeOfFamiliesEAndF op
  fin_cases j
  exacts [⟨_, hcls h, rfl⟩, ⟨_, hret h, rfl⟩, ⟨_, h1 h, rfl⟩, ⟨_, h2 h, rfl⟩, ⟨_, h3 h, rfl⟩, ⟨_, h4 h, rfl⟩,
    ⟨_, h5 h, rfl⟩, ⟨_, h6 h, rfl⟩, ⟨_, h7 h, rfl⟩, ⟨_, h80 h, rfl⟩, ⟨_, h81 h, rfl⟩, ⟨_, h82 h, rfl⟩,
    ⟨_, h83 h, rfl⟩, ⟨_, h84 h, rfl⟩, ⟨_, h85 h, rfl⟩, ⟨_, h86 h, rfl⟩, ⟨_, h87 h, rfl⟩, ⟨_, h8E h, rfl⟩,
    ⟨_, h9 h, rfl⟩, ⟨_, hA h, rfl⟩, ⟨_, hB h, rfl⟩, ⟨_, hC h, rfl⟩, ⟨_, hD h, rfl⟩, ⟨_, h9E h, rfl⟩,
    ⟨_, hA1 h, rfl⟩, ⟨_, h07 h, rfl⟩, ⟨_, h0A h, rfl⟩, ⟨_, h15 h, rfl⟩, ⟨_, h18 h, rfl⟩, ⟨_, h1E h, rfl⟩,
    ⟨_, h29 h, rfl⟩, ⟨_, h33 h, rfl⟩, ⟨_, h55 h, rfl⟩, ⟨_, h65 h, rfl⟩]

theorem opcodeRows_length : opcodeRows.length = 34 := rfl

theorem opcodeRows_getD_mem (j : Fin 34) : opcodeRows.getD j (0, 0) ∈ opcodeRows := by
  have hj : j.val < opcodeRows.length := by rw [opcodeRows_length]; exact j.isLt
  rw [← List.getElem_eq_getD (0, 0) (h := hj)]
  exact List.getElem_mem hj

/-- Settles O6: a word's rows are those of the one instruction it decodes to, and a word that decodes is an encoding,
which matches its row. -/
theorem patternsAreDisjointAndComplete : Obligations.PatternsAreDisjointAndComplete := by
  refine ⟨opcodeRows_length, ?disjoint, fun op => ⟨?unknown, ?rest⟩⟩
  case disjoint =>
    intro op j k hj hk
    obtain ⟨i, hi, rfl⟩ := exists_decodeWord_of_row op j hj
    obtain ⟨i', hi', rfl⟩ := exists_decodeWord_of_row op k hk
    rw [Option.some.inj (hi.symm.trans hi')]
  case unknown =>
    intro hnone r hr hmatch
    obtain ⟨j, hj, rfl⟩ := List.mem_iff_getElem.1 hr
    rw [List.getElem_eq_getD (0, 0)] at hmatch
    obtain ⟨i, hi, -⟩ := exists_decodeWord_of_row op ⟨j, hj⟩ hmatch
    rw [hnone] at hi
    cases hi
  case rest =>
    intro hno
    cases hd : decodeWord op with
    | none => rfl
    | some i =>
      have hmatch := encode_matches_row i
      rw [Statement, decodedWordIsTheEncoding op i hd] at hmatch
      exact absurd hmatch (hno _ (opcodeRows_getD_mem (row i)))

end

/-- Settles O7: each word but the last two is an encoding. -/
theorem exampleWordsDecode : Obligations.ExampleWordsDecode := by
  refine ⟨?_, ?_, ?_, ?_, ?_, ?_, ?_, ?_, rfl, rfl⟩
  all_goals exact decodeWord_of_eq_encode rfl

end Sys2Proof
end

section
/-! PROOFS. What one step does, said once (spec/30_encoding.md R94 to R102): each instruction raises or completes within its
frame, each step is one of seven kinds; and the cycle's statements that follow from it. -/

namespace Sys2Proof.Machine

/-! ### Fetching -/

theorem fetches_iff (s : State) : Fetches s ↔ s.fault = none ∧ s.waitKey = none ∧ pcOk s.pc = true := by
  rw [Fetches, pcOk_iff]

theorem fetchesWord_iff (s : State) (op : Word) :
    FetchesWord s op ↔ (s.fault = none ∧ s.waitKey = none ∧ pcOk s.pc = true) ∧ op = s.fetchWord := by
  rw [FetchesWord, fetches_iff]; rfl

theorem FetchesWord.fault_eq_none {s : State} {op : Word} (h : FetchesWord s op) : s.fault = none := by
  obtain ⟨⟨hf, -⟩, -⟩ := h
  exact hf

theorem FetchesWord.waitKey_eq_none {s : State} {op : Word} (h : FetchesWord s op) : s.waitKey = none := by
  obtain ⟨⟨-, hw, -⟩, -⟩ := h
  exact hw

theorem FetchesWord.pcOk {s : State} {op : Word} (h : FetchesWord s op) : pcOk s.pc = true := by
  obtain ⟨⟨-, -, hp⟩, -⟩ := (fetchesWord_iff s op).1 h
  exact hp

theorem pcOk_eq_false_iff (pc : Word) :
    pcOk pc = false ↔ pc.toNat % 2 = 1 ∨ pc.toNat < 0x200 ∨ 0xFFE < pc.toNat := by
  rw [Bool.eq_false_iff, ne_eq, pcOk_iff]
  omega

theorem step_of_fetchesWord {s : State} {op : Word} {i : Instr} (h : FetchesWord s op)
    (hd : decodeWord op = some i) : step s = endStep (exec i s.clearOutputs) := by
  obtain ⟨⟨hf, hw, hp⟩, rfl⟩ := (fetchesWord_iff s op).1 h
  exact step_exec hf hw hp hd

/-- Settles O8: the step's end is the Timer Unit unless a record was written. -/
theorem stepRunsTheFetchedInstruction : Obligations.StepRunsTheFetchedInstruction := by
  intro s op i h hd
  rw [step_of_fetchesWord h hd]
  change _ = match exec i s.clearOutputs with | .next t => _ | .fault e => _ | .refused e => _
  cases exec i s.clearOutputs with
  | next t => cases hf : t.fault <;> simp [hf]
  | fault e => rfl
  | refused e => rfl

/-! ### Every step answers a next state -/

/-- An instruction that can raise ends in a commit, and every other one in a next state of its own. -/
theorem exec_next (i : Instr) (s : State) : ∃ t, exec i s = .next t := by
  cases i
  case ret | callAddr | drwVxVyNibble | skpVx | sknpVx | ldBVx | ldMemVx | ldVxMem => exact s.commit_next _ _
  all_goals exact ⟨_, rfl⟩

theorem step_next (s : State) : ∃ t, step s = .next t := by
  obtain ⟨-, h⟩ | ⟨_, -, -, h⟩ | ⟨-, -, -, h⟩ | ⟨-, -, -, -, h⟩ | ⟨i, -, -, -, -, h⟩ := step_cases s
  · exact ⟨_, h⟩
  · exact ⟨_, h⟩
  · exact ⟨_, h⟩
  · exact ⟨_, h⟩
  · obtain ⟨u, hu⟩ := exec_next i s.clearOutputs
    exact ⟨_, by rw [h, hu, endStep_next]⟩

/-- Settles O9. -/
theorem everyStepAnswersANextState : Obligations.EveryStepAnswersANextState := ⟨exec_next, step_next⟩

/-! ### The frame of a completing instruction -/

/-- What an instruction that does not raise can change, element by element (R20). -/
structure CompletesWithin (i : Instr) (s t : State) : Prop where
  fault : t.fault = s.fault
  toneEnd : t.toneEnd = s.toneEnd
  diag : t.diag = s.diag
  key : t.key = s.key
  font : t.mem.font = s.mem.font
  fb : t.fb ≠ s.fb → i = .cls ∨ ∃ x y n, i = .drwVxVyNibble x y n
  mem : t.mem ≠ s.mem → ∃ x, i = .ldBVx x ∨ i = .ldMemVx x
  index : t.I ≠ s.I → (∃ n, i = .ldIAddr n) ∨ (∃ x, i = .addIVx x) ∨ ∃ x, i = .ldFVx x
  stack : t.stack ≠ s.stack → ∃ n, i = .callAddr n
  sp : t.sp ≠ s.sp → i = .ret ∨ ∃ n, i = .callAddr n
  waitKey : t.waitKey ≠ s.waitKey → ∃ x, i = .ldVxK x ∧ t.waitKey = some x
  flag : t.reg VF ≠ s.reg VF → writesVF i = true
  wf : s.mem.wf = true → t.mem.wf = true
  fontRegion : ∀ a, a < 0x50 → t.mem.read a = s.mem.read a

/-- An instruction raises a condition that R241 lets it raise, or completes within its frame. -/
theorem exec_raises_or_completes {i : Instr} {s t : State} (h : exec i s = .next t) :
    (∃ e, t = s.takeFault (some (encode i)) e ∧ raisedBy e.cause i = true ∧ e.detail = detailOf s i e.cause ∧
      detailOk e.cause e.detail = true) ∨ CompletesWithin i s t := by
  obtain hraised | ⟨hfault, htone, hdiag, hkey, hfont, hfb, hmem, hI, hstack, hsp, hwait, hVF, hwf, hregion⟩ :=
    exec_cases h
  · exact Or.inl hraised
  · exact Or.inr ⟨hfault, htone, hdiag, hkey, hfont, hfb, hmem, hI, hstack, hsp, hwait, hVF, hwf, hregion⟩

/-! ### The kinds of steps -/

/-- The seven ways a step goes from `s` to `t`. -/
inductive StepKind (s t : State) : Prop where
  /-- Halted (R95). -/
  | halted (hf : s.fault ≠ none) (ht : t = s.clearOutputs)
  /-- In the key wait with no key pressed (R96). -/
  | stalled (x : Reg) (hf : s.fault = none) (hw : s.waitKey = some x) (hkeys : ∀ k : Fin 16, s.key[k] = false)
      (ht : t = s.clearOutputs)
  /-- The resolution of the key wait (R96). -/
  | resolved (x : Reg) (k : Fin 16) (hf : s.fault = none) (hw : s.waitKey = some x) (hk : s.key[k] = true)
      (ht : t = (s.clearOutputs.resolveWait x k).timerUpdate)
  /-- A `pc` out of range (R97). -/
  | badPc (hf : s.fault = none) (hw : s.waitKey = none) (hp : pcOk s.pc = false) (ht : t = s.badFetch)
  /-- An Unknown word (R100). -/
  | unknown (op : Word) (hop : FetchesWord s op) (hd : decodeWord op = none)
      (ht : t = (s.clearOutputs.reportUnknown op).timerUpdate)
  /-- An instruction that raises (R102). -/
  | raised (op : Word) (i : Instr) (e : Raise) (hop : FetchesWord s op) (hd : decodeWord op = some i)
      (hby : raisedBy e.cause i = true) (hdetail : e.detail = detailOf s i e.cause)
      (hok : detailOk e.cause e.detail = true) (ht : t = s.takeFault (some op) e)
  /-- An instruction that completes (R101). -/
  | completed (op : Word) (i : Instr) (u : State) (hop : FetchesWord s op) (hd : decodeWord op = some i)
      (hu : exec i s.clearOutputs = .next u) (hframe : CompletesWithin i s.clearOutputs u) (ht : t = u.timerUpdate)

/-- The scan finds a key exactly when one is pressed. -/
theorem firstPressed_some {key : Vector Bool 16} {k : Fin 16} (h : firstPressed key = some k) : key[k] = true :=
  List.find?_some (p := fun j : Fin 16 => key[j]) h

theorem firstPressed_none {key : Vector Bool 16} (h : firstPressed key = none) (k : Fin 16) : key[k] = false := by
  simpa using List.find?_eq_none.1 h k (List.mem_finRange k)

theorem keyWaitStep_kind {s t : State} {x : Reg} (hf : s.fault = none) (hw : s.waitKey = some x)
    (ht : t = s.clearOutputs.keyWaitStep x) : StepKind s t := by
  unfold State.keyWaitStep at ht
  split at ht
  · next hnone => exact .stalled x hf hw (firstPressed_none hnone) ht
  · next k hk => exact .resolved x k hf hw (firstPressed_some hk) ht

theorem exec_kind {s t : State} {i : Instr} (hop : FetchesWord s s.fetchWord) (hd : decodeWord s.fetchWord = some i)
    (h : endStep (exec i s.clearOutputs) = .next t) : StepKind s t := by
  obtain ⟨u, hu⟩ := exec_next i s.clearOutputs
  rw [hu, endStep_next] at h
  obtain ⟨e, rfl, hby, hdetail, hok⟩ | hframe := exec_raises_or_completes hu
  · refine .raised _ i e hop hd hby (by simpa using hdetail) hok ?_
    rw [← decodedWordIsTheEncoding _ i hd]
    cases h; rfl
  · have hfault : u.fault = none := hframe.fault.trans hop.fault_eq_none
    simp only [hfault, Option.isSome_none, Bool.false_eq_true, ↓reduceIte] at h
    cases h
    exact .completed _ i u hop hd hu hframe rfl

/-- Every step is of one of the seven kinds. -/
theorem step_kind {s t : State} (h : step s = .next t) : StepKind s t := by
  obtain ⟨hf, hs⟩ | ⟨x, hf, hw, hs⟩ | ⟨hf, hw, hp, hs⟩ | ⟨hf, hw, hp, hd, hs⟩ | ⟨i, hf, hw, hp, hd, hs⟩ :=
    step_cases s
  all_goals rw [hs] at h
  · cases h; exact .halted hf rfl
  · cases h; exact keyWaitStep_kind hf hw rfl
  · cases h; exact .badPc hf hw hp rfl
  · cases h; exact .unknown _ ((fetchesWord_iff s _).2 ⟨⟨hf, hw, hp⟩, rfl⟩) hd rfl
  · exact exec_kind ((fetchesWord_iff s _).2 ⟨⟨hf, hw, hp⟩, rfl⟩) hd h

/-! ### The Timer Unit on natural numbers (R260) -/

theorem ticked_eq_countdown (t : Byte) : ticked t = countdown t := by
  rw [ticked, ← countdown_toNat, BitVec.ofNat_toNat, BitVec.setWidth_eq]

/-- A tone end is emitted exactly when ST was 1, the outputs having been cleared. -/
theorem timerUpdate_toneEnd_eq (s : State) (h : s.toneEnd = false) :
    s.timerUpdate.toneEnd = decide (s.ST.toNat = 1) := by
  have hone : s.ST = 1 ↔ s.ST.toNat = 1 := BitVec.toNat_inj.symm
  simp only [State.timerUpdate_toneEnd, hone, h]
  by_cases h1 : s.ST.toNat = 1 <;> simp [h1]

/-- The Timer Unit, written out. -/
theorem timerUpdate_eq (s : State) (h : s.toneEnd = false) :
    s.timerUpdate = { s with
      DT := ticked s.DT
      ST := ticked s.ST
      toneEnd := decide (s.ST.toNat = 1) } := by
  rw [ticked_eq_countdown, ticked_eq_countdown, ← timerUpdate_toneEnd_eq s h]
  rfl

/-! ### Halts, key waits, faults and Unknown words -/

/-- Settles O10: a halted step and a key wait whose scan finds no key end with the cleared outputs. -/
theorem haltedAndStalledStepsDoNothing : Obligations.HaltedAndStalledStepsDoNothing := by
  refine ⟨fun s => step_halted, fun s x hf hw hkeys => ?_⟩
  rw [step_waiting hf hw, State.keyWaitStep, State.clearOutputs_key, firstPressed_eq_none hkeys]
  rfl

/-- Settles O11: the scan finds the smallest key, and its resolution is followed by the Timer Unit. -/
theorem keyWaitResolvesToSmallestKey : Obligations.KeyWaitResolvesToSmallestKey := by
  intro s x k hf hw hk hmin
  have hscan : s.clearOutputs.keyWaitStep x = (s.clearOutputs.resolveWait x k).timerUpdate := by
    rw [State.keyWaitStep, State.clearOutputs_key, firstPressed_eq_some hk hmin]
  rw [step_waiting hf hw, hscan, timerUpdate_eq _ rfl]
  rfl

/-- Settles O12: no state escapes the fetch check. -/
theorem badPcRaisesPcOutOfRange : Obligations.BadPcRaisesPcOutOfRange := badPcFaultsNext

/-- Settles O13: the report is followed by the Timer Unit. -/
theorem unknownWordIsAReportedNoOp : Obligations.UnknownWordIsAReportedNoOp := by
  intro s op h hd
  obtain ⟨⟨hf, hw, hp⟩, rfl⟩ := (fetchesWord_iff s op).1 h
  rw [step_unknown hf hw hp hd, timerUpdate_eq _ rfl]
  rfl

/-- A step from a running state that ends in a fault raised PcOutOfRange or is that of an instruction that raised. -/
theorem faulting_step_kind {s t : State} {r : FaultRecord} (hs : s.fault = none) (h : step s = .next t)
    (ht : t.fault = some r) :
    (s.waitKey = none ∧ pcOk s.pc = false ∧ t = s.badFetch) ∨
    ∃ op i e, FetchesWord s op ∧ decodeWord op = some i ∧ raisedBy e.cause i = true ∧
      e.detail = detailOf s i e.cause ∧ t = s.takeFault (some op) e := by
  cases step_kind h with
  | halted hf => exact absurd hs hf
  | stalled x hf hw hkeys hst => simp [hst, hs] at ht
  | resolved x k hf hw hk hst => simp [hst, hs] at ht
  | badPc hf hw hp hst => exact Or.inl ⟨hw, hp, hst⟩
  | unknown op hop hd hst => simp [hst, hs] at ht
  | raised op i e hop hd hby hdetail hok hst => exact Or.inr ⟨op, i, e, hop, hd, hby, hdetail, hst⟩
  | completed op i u hop hd hu hframe hst => simp [hst, hframe.fault, hs] at ht

/-- Settles O15: both faulting kinds of step are the fault entry on the state before them. -/
theorem faultingStepChangesOnlyTheRecord : Obligations.FaultingStepChangesOnlyTheRecord := by
  intro s t r hs h ht
  obtain ⟨-, -, rfl⟩ | ⟨op, i, e, -, -, -, -, rfl⟩ := faulting_step_kind hs h ht
  all_goals
    cases ht
    exact ⟨rfl, rfl⟩

/-- Settles O16: the record is that of the fetch check, or the one the fetched instruction raised. -/
theorem faultRecordFitsTheFetchedInstruction : Obligations.FaultRecordFitsTheFetchedInstruction := by
  intro s t r hs h ht
  obtain ⟨hw, hp, rfl⟩ | ⟨op, i, e, hop, hd, hby, hdetail, rfl⟩ := faulting_step_kind hs h ht
  · cases ht
    exact ⟨rfl, Or.inl ⟨rfl, rfl, rfl, hw, (pcOk_eq_false_iff s.pc).1 hp⟩⟩
  · cases ht
    exact ⟨rfl, Or.inr ⟨op, i, hop, rfl, hd, hby, hdetail⟩⟩

end Sys2Proof.Machine
end

section
/-! PROOFS. What instructions do to `pc`, the stack and the timers, and the invariant (spec/10_state.md R24, R26;
spec/60_exceptions.md R260; spec/70_reset_and_hazards.md R290). -/

namespace Sys2Proof.Machine

/-! ### Instructions that can raise, by their condition -/

section
variable {i : Instr} {s t : State}

/-- The four instructions that access memory raise, or write memory, registers or the screen and pass to the next
instruction. -/
theorem memoryAccess_cases (hi : raisedBy .addressOutOfRange i = true) (h : exec i s = .next t) :
    (∃ e, t = s.takeFault (some (encode i)) e) ∨
    ∃ m V fb d, t = { s with mem := m, V := V, fb := fb, dirty := d, pc := s.pc + 2 } := by
  cases i
  case drwVxVyNibble | ldVxMem =>
    simp only [exec_drwVxVyNibble, exec_ldVxMem] at h
    split_ifs at h <;> cases h
    exacts [Or.inr ⟨_, _, _, _, rfl⟩, Or.inl ⟨_, rfl⟩]
  case ldBVx | ldMemVx =>
    simp only [exec_ldBVx, exec_ldMemVx] at h
    split_ifs at h <;> cases h
    exacts [Or.inl ⟨_, rfl⟩, Or.inr ⟨_, _, _, _, rfl⟩, Or.inl ⟨_, rfl⟩]
  all_goals cases hi

/-- The two key tests are one operation (R220, R221). -/
theorem exec_keyTest (hi : raisedBy .keyIndexOutOfRange i = true) :
    ∃ x wanted, ∀ s, exec i s = s.commit i (s.keySkip (s.reg x) wanted) := by
  cases i
  case skpVx x => exact ⟨x, true, fun _ => rfl⟩
  case sknpVx x => exact ⟨x, false, fun _ => rfl⟩
  all_goals cases hi

theorem State.keySkip_of_none (s : State) {b : Byte} (wanted : Bool) (h : keyOf b = none) :
    s.keySkip b wanted = .error { cause := .keyIndexOutOfRange, detail := some b.toNat } := by
  simp only [State.keySkip, h]

theorem State.keySkip_of_some (s : State) {b : Byte} {k : Fin 16} (wanted : Bool) (h : keyOf b = some k) :
    s.keySkip b wanted = .ok (s.skipIf (s.key[k] == wanted)) := by
  simp only [State.keySkip, h]

/-- The two key tests raise or skip. -/
theorem keyTest_cases (hi : raisedBy .keyIndexOutOfRange i = true) (h : exec i s = .next t) :
    (∃ e, t = s.takeFault (some (encode i)) e) ∨ ∃ c, t = s.skipIf c := by
  obtain ⟨x, wanted, hexec⟩ := exec_keyTest hi
  rw [hexec] at h
  cases hk : keyOf (s.reg x) with
  | none =>
    rw [s.keySkip_of_none wanted hk] at h
    cases h; exact Or.inl ⟨_, rfl⟩
  | some k =>
    rw [s.keySkip_of_some wanted hk] at h
    cases h; exact Or.inr ⟨_, rfl⟩

end

/-- A stack pointer is empty or one past an entry. -/
theorem sp_eq_zero_or_succ (s : State) : s.sp.val = 0 ∨ ∃ j : Fin 16, s.sp.val = j.val + 1 := by
  by_cases h : s.sp.val = 0
  · exact Or.inl h
  · exact Or.inr ⟨⟨s.sp.val - 1, by omega⟩, by simp only; omega⟩

/-! ### `pc` and the stack -/

/-- What an instruction does to `pc` and the stack: a return, a call, or neither. -/
inductive ControlKind (s t : State) : Prop where
  | popped (j : Fin 16) (hs : s.sp.val = j.val + 1) (hsp : t.sp.val = j.val) (hstack : t.stack = s.stack)
      (hpc : t.pc = s.stack[j])
  | pushed (j : Fin 16) (hs : s.sp.val = j.val) (hsp : t.sp.val = j.val + 1)
      (hstack : t.stack = s.stack.set j.val (s.pc + 2)) (hpc : t.pc.toNat ≤ 0xFFF)
  | moved (hsp : t.sp = s.sp) (hstack : t.stack = s.stack)
      (hpc : t.pc = s.pc ∨ t.pc = s.pc + 2 ∨ t.pc = s.pc + 4 ∨ t.pc.toNat ≤ 0x10FE)

theorem ControlKind.takeFault (s : State) (op : Option Word) (e : Raise) : ControlKind s (s.takeFault op e) :=
  .moved rfl rfl (Or.inl rfl)

theorem ControlKind.skipIf (s : State) (c : Bool) : ControlKind s (s.skipIf c) := by
  refine .moved rfl rfl (Or.inr ?_)
  cases c
  · exact Or.inl rfl
  · exact Or.inr (Or.inl rfl)

theorem exec_jpV0Addr (nnn : Addr) (s : State) :
    exec (.jpV0Addr nnn) s = .next (s.setPc (zextAddr nnn + zextByte (s.reg 0))) := rfl

/-- R123: the sum of an address and a byte does not wrap. -/
theorem zextAddr_add_zextByte_toNat (nnn : Addr) (b : Byte) :
    (zextAddr nnn + zextByte b).toNat = nnn.toNat + b.toNat := by
  have := nnn.isLt
  have := b.isLt
  rw [BitVec.toNat_add, zextAddr_toNat, zextByte_toNat]
  omega

theorem exec_control {i : Instr} {s t : State} (h : exec i s = .next t) : ControlKind s t := by
  cases i
  case ret =>
    obtain h0 | ⟨j, hj⟩ := sp_eq_zero_or_succ s
    · rw [exec_ret_of_empty s h0] at h
      cases h; exact .takeFault s _ _
    · rw [exec_ret_of_sp s j hj] at h
      cases h; exact .popped j hj rfl rfl rfl
  case callAddr nnn =>
    have := nnn.isLt
    rw [exec_callAddr] at h
    split at h <;> cases h
    · next hroom => exact .pushed ⟨s.sp.val, hroom⟩ rfl rfl rfl (by simp only [zextAddr_toNat]; omega)
    · exact .takeFault s _ _
  case jpAddr nnn =>
    have := nnn.isLt
    cases h
    exact .moved rfl rfl (Or.inr (Or.inr (Or.inr (by simp only [State.setPc_pc, zextAddr_toNat]; omega))))
  case jpV0Addr nnn =>
    have := nnn.isLt
    have := (s.reg 0).isLt
    rw [exec_jpV0Addr] at h
    cases h
    exact .moved rfl rfl (Or.inr (Or.inr (Or.inr (by simp only [State.setPc_pc, zextAddr_add_zextByte_toNat]; omega))))
  case seVxByte | sneVxByte | seVxVy | sneVxVy => cases h; exact .skipIf s _
  case skpVx | sknpVx =>
    obtain ⟨e, rfl⟩ | ⟨c, rfl⟩ := keyTest_cases rfl h
    exacts [.takeFault s _ _, .skipIf s _]
  case drwVxVyNibble | ldBVx | ldMemVx | ldVxMem =>
    obtain ⟨e, rfl⟩ | ⟨_, _, _, _, rfl⟩ := memoryAccess_cases rfl h
    exacts [.takeFault s _ _, .moved rfl rfl (Or.inr (Or.inl rfl))]
  case ldVxK => cases h; exact .moved rfl rfl (Or.inl rfl)
  all_goals cases h; exact .moved rfl rfl (Or.inr (Or.inl rfl))

/-! ### The timers -/

/-- DT and ST after an instruction: only FX15 and FX18 write them (R28, R29). -/
def timersAfter (s : State) : Instr → Byte × Byte
  | .ldDTVx x => (s.reg x, s.ST)
  | .ldSTVx x => (s.DT, s.reg x)
  | _ => (s.DT, s.ST)

theorem exec_timers {i : Instr} {s t : State} (h : exec i s = .next t) : (t.DT, t.ST) = timersAfter s i := by
  cases i
  case ret =>
    obtain h0 | ⟨j, hj⟩ := sp_eq_zero_or_succ s
    · rw [exec_ret_of_empty s h0] at h; cases h; rfl
    · rw [exec_ret_of_sp s j hj] at h; cases h; rfl
  case callAddr nnn =>
    rw [exec_callAddr] at h
    split at h <;> cases h <;> rfl
  case skpVx | sknpVx => obtain ⟨e, rfl⟩ | ⟨c, rfl⟩ := keyTest_cases rfl h <;> rfl
  case drwVxVyNibble | ldBVx | ldMemVx | ldVxMem =>
    obtain ⟨e, rfl⟩ | ⟨_, _, _, _, rfl⟩ := memoryAccess_cases rfl h <;> rfl
  all_goals cases h; rfl

theorem timersToTick_of_waiting {s : State} {x : Reg} (hw : s.waitKey = some x) :
    timersToTick s = (s.DT, s.ST) := by
  simp only [timersToTick, hw]

theorem timersToTick_of_unknown {s : State} {op : Word} (hop : FetchesWord s op) (hd : decodeWord op = none) :
    timersToTick s = (s.DT, s.ST) := by
  obtain ⟨⟨-, hw, -⟩, rfl⟩ := hop
  simp only [timersToTick, hw, hd]

theorem timersToTick_of_instr {s : State} {op : Word} {i : Instr} (hop : FetchesWord s op)
    (hd : decodeWord op = some i) : timersToTick s = timersAfter s i := by
  obtain ⟨⟨-, hw, -⟩, rfl⟩ := hop
  simp only [timersToTick, hw, hd]
  cases i <;> rfl

/-- The Timer Unit run on the timers the step's effects leave. -/
theorem timerUpdate_ticks {u : State} {timers : Byte × Byte} (hu : (u.DT, u.ST) = timers) (htone : u.toneEnd = false) :
    u.timerUpdate.DT.toNat = timers.1.toNat - 1 ∧ u.timerUpdate.ST.toNat = timers.2.toNat - 1 ∧
      (u.timerUpdate.toneEnd = true ↔ timers.2.toNat = 1) := by
  subst hu
  refine ⟨countdown_toNat u.DT, countdown_toNat u.ST, ?_⟩
  rw [timerUpdate_toneEnd_eq u htone, decide_eq_true_iff]

/-- Settles O14: by the kind of step, the Timer Unit runs on what the instruction left, or nothing ticks. -/
theorem timersTickExactlyInCompletingSteps : Obligations.TimersTickExactlyInCompletingSteps := by
  intro s t h
  cases step_kind h with
  | halted hf ht => subst ht; exact ⟨fun _ => ⟨rfl, rfl, rfl⟩, fun hs => absurd hs hf⟩
  | stalled x hf hw hkeys ht => subst ht; exact ⟨fun _ => ⟨rfl, rfl, rfl⟩, by simp [hw, hkeys]⟩
  | badPc hf hw hp ht => subst ht; exact ⟨fun _ => ⟨rfl, rfl, rfl⟩, fun _ ht => by simp at ht⟩
  | raised op i e hop hd hby hdetail hok ht =>
    subst ht; exact ⟨fun _ => ⟨rfl, rfl, rfl⟩, fun _ ht => by simp at ht⟩
  | resolved x k hf hw hk ht =>
    subst ht
    refine ⟨fun hquiet => ?_, fun _ _ _ => timerUpdate_ticks (timersToTick_of_waiting hw).symm rfl⟩
    obtain hs | ht | ⟨-, hkeys⟩ := hquiet
    · exact absurd hf hs
    · exact absurd hf ht
    · rw [hkeys k] at hk; cases hk
  | unknown op hop hd ht =>
    subst ht
    exact ⟨by simp [hop.fault_eq_none, hop.waitKey_eq_none],
      fun _ _ _ => timerUpdate_ticks (timersToTick_of_unknown hop hd).symm rfl⟩
  | completed op i u hop hd hu hframe ht =>
    subst ht
    have htimers : (u.DT, u.ST) = timersToTick s := by
      rw [exec_timers hu, timersToTick_of_instr hop hd]
      cases i <;> rfl
    have hfault : u.fault = none := hframe.fault.trans hop.fault_eq_none
    exact ⟨by simp [hop.fault_eq_none, hop.waitKey_eq_none, hfault],
      fun _ _ _ => timerUpdate_ticks htimers hframe.toneEnd⟩

/-! ### The invariant at reset -/

/-- The state of R290 has the invariant, for every FONT and count of draws: nothing is listed, nothing is in use. -/
theorem inv_initial (font : Vector Byte 80) (draws : Nat) : Inv { State.initial font with draws := draws } := by
  refine ⟨rfl, (by decide : (0x0200 : Word).toNat ≤ 0x10FE), fun j => Or.inl (by simp [State.initial]), fun j hj => absurd hj (Nat.not_lt_zero _),
    fun hw => absurd rfl hw, fun ht => absurd ht Bool.false_ne_true, fun r hr => (by cases hr), fun d hd => (by cases hd)⟩

/-- Settles O59. -/
theorem resetHasTheInvariant : Obligations.ResetHasTheInvariant := inv_initial defaultFont 0

/-! ### The invariant through a step -/

theorem toNat_add_two {pc : Word} (h : pc.toNat ≤ 0x10FE) : (pc + 2).toNat = pc.toNat + 2 := by
  have htwo : (2 : Word).toNat = 2 := rfl
  rw [BitVec.toNat_add, htwo]
  omega

theorem toNat_add_four {pc : Word} (h : pc.toNat ≤ 0x10FE) : (pc + 4).toNat = pc.toNat + 4 := by
  have hfour : (4 : Word).toNat = 4 := rfl
  rw [BitVec.toNat_add, hfour]
  omega

theorem returnAddressOk_iff (w : Word) :
    returnAddressOk w = true ↔ w.toNat % 2 = 0 ∧ 0x202 ≤ w.toNat ∧ w.toNat ≤ 0x1000 := by
  simp [returnAddressOk, and_assoc]

/-- R122: the address after a fetched call is a return address. -/
theorem returnAddressOk_add_two {pc : Word} (h : pcOk pc = true) : returnAddressOk (pc + 2) = true := by
  rw [pcOk_iff] at h
  rw [returnAddressOk_iff, toNat_add_two (by omega)]
  omega

/-- The invariant's part on `pc` and the stack. -/
def ControlOk (s : State) : Prop :=
  s.pc.toNat ≤ 0x10FE ∧
  (∀ j : Fin 16, s.stack[j] = 0 ∨ returnAddressOk s.stack[j] = true) ∧
  (∀ j : Fin 16, j.val < s.sp.val → returnAddressOk s.stack[j] = true)

/-- Executing at a fetchable `pc` keeps the invariant's part on `pc` and the stack. -/
theorem ControlKind.controlOk {s t : State} (hkind : ControlKind s t) (hs : ControlOk s) (hp : pcOk s.pc = true) :
    ControlOk t := by
  obtain ⟨hpcs, hall, hused⟩ := hs
  have hpcok := (pcOk_iff s.pc).1 hp
  cases hkind with
  | popped j hs hsp hstack hpc =>
    have htop := hused j (by omega)
    refine ⟨?_, by rwa [hstack], fun k hk => ?_⟩
    · rw [hpc]
      have := (returnAddressOk_iff _).1 htop
      omega
    · rw [hstack]
      exact hused k (by omega)
  | pushed j hs hsp hstack hpc =>
    have hentry (k : Fin 16) : t.stack[k] = if j = k then s.pc + 2 else s.stack[k] := by
      simp only [hstack, Fin.getElem_fin, Vector.getElem_set, Fin.ext_iff]
    refine ⟨by omega, fun k => ?_, fun k hk => ?_⟩
    all_goals
      rw [hentry]
      split
    · exact Or.inr (returnAddressOk_add_two hp)
    · exact hall k
    · exact returnAddressOk_add_two hp
    · next hne => exact hused k (by have := mt Fin.ext hne; omega)
  | moved hsp hstack hpc =>
    refine ⟨?_, by rwa [hstack], by rwa [hstack, hsp]⟩
    obtain h | h | h | h := hpc
    · rw [h]; exact hpcs
    · rw [h, toNat_add_two hpcs]; omega
    · rw [h, toNat_add_four hpcs]; omega
    · exact h

/-- In a running state with the outputs cleared, the invariant is its parts on memory, on `pc` and the stack, and on the
key wait. -/
theorem inv_of_running {s : State} (hwf : s.mem.wf = true) (hcontrol : ControlOk s)
    (hwait : s.waitKey ≠ none → pcOk s.pc = true) (hf : s.fault = none) (htone : s.toneEnd = false)
    (hdiag : s.diag = none) : Inv s := by
  obtain ⟨hpc, hall, hused⟩ := hcontrol
  exact ⟨hwf, hpc, hall, hused, fun hw => ⟨hwait hw, hf⟩, by simp [htone], by simp [hf], by simp [hdiag]⟩

theorem inv_clearOutputs {s : State} (h : Inv s) : Inv s.clearOutputs := by
  obtain ⟨hwf, hpc, hall, hused, hwait, -, hfault, -⟩ := h
  exact ⟨hwf, hpc, hall, hused, hwait, fun ht => absurd ht Bool.false_ne_true, hfault, fun d hd => (by cases hd)⟩

/-- R260: a tone end leaves ST at 0. -/
theorem inv_timerUpdate {s : State} (h : Inv s) (hf : s.fault = none) (htone : s.toneEnd = false) :
    Inv s.timerUpdate := by
  obtain ⟨hwf, hpc, hall, hused, hwait, -, hfault, hdiag⟩ := h
  refine ⟨hwf, hpc, hall, hused, hwait, fun ht => ⟨?_, hf⟩, hfault, hdiag⟩
  by_cases hone : s.ST = 1
  · rw [State.timerUpdate_ST, hone]; rfl
  · rw [State.timerUpdate_toneEnd, if_neg hone, htone] at ht
    cases ht

/-- A fault entry outside a key wait keeps the invariant, where its record fits. -/
theorem inv_takeFault {s : State} {op : Option Word} {e : Raise} (h : Inv s) (hw : s.waitKey = none)
    (hrecord : recordOk { cause := e.cause, pc := s.pc, opcode := op, detail := e.detail } = true) :
    Inv (s.takeFault op e) := by
  obtain ⟨hwf, hpc, hall, hused, -, -, -, -⟩ := h
  refine ⟨hwf, hpc, hall, hused, fun hne => absurd hw hne, fun ht => absurd ht Bool.false_ne_true, fun r hr => ?_,
    fun d hd => (by cases hd)⟩
  cases hr
  exact ⟨rfl, hrecord⟩

/-- R241: the record of the fetch check. -/
theorem recordOk_badPc {pc : Word} (hp : pcOk pc = false) :
    recordOk { cause := .pcOutOfRange, pc := pc, opcode := none, detail := none } = true := by
  simp [recordOk, detailOk, hp]

/-- R241: the record of an instruction fetched at `pc`. -/
theorem recordOk_instr {pc op : Word} {i : Instr} {e : Raise} (hp : pcOk pc = true) (hd : decodeWord op = some i)
    (hby : raisedBy e.cause i = true) (hok : detailOk e.cause e.detail = true) :
    recordOk { cause := e.cause, pc := pc, opcode := some op, detail := e.detail } = true := by
  simp [recordOk, hok, hp, hd, hby]

theorem Inv.controlOk {s : State} (h : Inv s) : ControlOk s := by
  obtain ⟨-, hpc, hall, hused, -⟩ := h
  exact ⟨hpc, hall, hused⟩

/-- Passing to the next instruction, from a fetchable `pc`. -/
theorem controlOk_add_two {s t : State} (h : ControlOk s) (hp : pcOk s.pc = true) (hsp : t.sp = s.sp)
    (hstack : t.stack = s.stack) (hpc : t.pc = s.pc + 2) : ControlOk t :=
  (ControlKind.moved hsp hstack (Or.inr (Or.inl hpc))).controlOk h hp

theorem inv_resolveWait {s : State} {x : Reg} {k : Fin 16} (h : Inv s) (hw : s.waitKey = some x) :
    Inv (s.clearOutputs.resolveWait x k) := by
  have hcontrol := h.controlOk
  obtain ⟨hwf, -, -, -, hwait, -⟩ := h
  obtain ⟨hp, hf⟩ := hwait (by simp [hw])
  exact inv_of_running hwf (controlOk_add_two hcontrol hp rfl rfl rfl) (fun hne => absurd rfl hne) hf rfl rfl

theorem inv_reportUnknown {s : State} {op : Word} (h : Inv s) (hop : FetchesWord s op) (hd : decodeWord op = none) :
    Inv (s.clearOutputs.reportUnknown op) := by
  obtain ⟨⟨hf, hw, hp⟩, -⟩ := (fetchesWord_iff s op).1 hop
  obtain ⟨hpc, hall, hused⟩ := controlOk_add_two (t := s.clearOutputs.reportUnknown op) h.controlOk hp rfl rfl rfl
  obtain ⟨hwf, -⟩ := h
  refine ⟨hwf, hpc, hall, hused, fun hne => absurd hw hne, fun ht => absurd ht Bool.false_ne_true, ?_, fun d hdiag => ?_⟩
  · intro r hr
    rw [State.reportUnknown_fault, State.clearOutputs_fault, hf] at hr
    cases hr
  · cases hdiag
    exact ⟨hd, hp, rfl, hf⟩

/-- An instruction that completes keeps the invariant: its frame holds memory, and only FX0A sets the key wait, at its own
`pc`. -/
theorem inv_exec {s u : State} {i : Instr} {op : Word} (h : Inv s) (hop : FetchesWord s op)
    (hu : exec i s.clearOutputs = .next u) (hframe : CompletesWithin i s.clearOutputs u) : Inv u := by
  have hcontrol : ControlOk s.clearOutputs := h.controlOk
  obtain ⟨hwf, -⟩ := h
  refine inv_of_running (hframe.wf hwf) ((exec_control hu).controlOk hcontrol hop.pcOk) (fun hne => ?_)
    (hframe.fault.trans hop.fault_eq_none) hframe.toneEnd hframe.diag
  have hchanged : u.waitKey ≠ s.clearOutputs.waitKey := by
    rwa [State.clearOutputs_waitKey, hop.waitKey_eq_none]
  obtain ⟨x, rfl, -⟩ := hframe.waitKey hchanged
  cases hu
  exact hop.pcOk

theorem inv_step {s t : State} (h : Inv s) (hstep : step s = .next t) : Inv t := by
  cases step_kind hstep with
  | halted hf ht => rw [ht]; exact inv_clearOutputs h
  | stalled x hf hw hkeys ht => rw [ht]; exact inv_clearOutputs h
  | resolved x k hf hw hk ht => rw [ht]; exact inv_timerUpdate (inv_resolveWait h hw) hf rfl
  | badPc hf hw hp ht => rw [ht]; exact inv_takeFault h hw (recordOk_badPc hp)
  | unknown op hop hd ht => rw [ht]; exact inv_timerUpdate (inv_reportUnknown h hop hd) hop.fault_eq_none rfl
  | raised op i e hop hd hby hdetail hok ht =>
    rw [ht]; exact inv_takeFault h hop.waitKey_eq_none (recordOk_instr hop.pcOk hd hby hok)
  | completed op i u hop hd hu hframe ht =>
    rw [ht]
    exact inv_timerUpdate (inv_exec h hop hu hframe) (hframe.fault.trans hop.fault_eq_none) hframe.toneEnd

/-! ### The invariant through a port -/

/-- A program lies above the font region and below the end of memory. -/
theorem inv_loadProgram {s : State} (h : Inv s) (bytes : List Byte) : Inv (loadProgram bytes s).2 := by
  by_cases hfits : bytes.length ≤ 3584
  · rw [loadProgram_of_length_le hfits]
    obtain ⟨hwf, hrest⟩ := h
    exact ⟨Memory.wf_writeAll _ hwf (by omega) (by omega), hrest⟩
  · rw [loadProgram_of_lt_length (by omega)]
    exact h

/-- The invariant says nothing of the keypad. -/
theorem inv_setKeyState {s : State} (h : Inv s) (index : Nat) (pressed : Bool) :
    Inv (setKeyState index pressed s) := by
  unfold setKeyState
  split
  · exact h
  · exact h

theorem inv_applyPort {s : State} (c : PortCall) (h : Inv s) : Inv (applyPort c s) := by
  cases c with
  | hostInitialize => exact inv_initial s.mem.font s.draws
  | loadProgram bytes => exact inv_loadProgram h bytes
  | setKeyState index pressed => exact inv_setKeyState h index pressed
  | frameConsumed => exact h

/-- Settles O58. -/
theorem everyHostCallKeepsTheInvariant : Obligations.EveryHostCallKeepsTheInvariant :=
  ⟨fun _ _ => inv_step, fun c _ => inv_applyPort c⟩

/-- Settles O60: the popped entry is one in use, which the invariant makes a return address. -/
theorem returnTargetsAreAligned : Obligations.ReturnTargetsAreAligned := by
  intro s t hinv h hf
  obtain ⟨-, -, -, hused, -⟩ := hinv
  obtain h0 | ⟨j, hj⟩ := sp_eq_zero_or_succ s
  · rw [exec_ret_of_empty s h0] at h
    cases h
    cases hf
  · rw [exec_ret_of_sp s j hj] at h
    cases h
    exact (returnAddressOk_iff _).1 (hused j (by omega))

end Sys2Proof.Machine
end

section
/-! PROOFS. The statements on single instructions of control, ALU, keypad and timers (spec/41_control_stack.md,
spec/42_register_alu.md, spec/43_index_memory.md R182, spec/45_keypad_timer_instr.md): frames, flags and fault entries. -/

namespace Sys2Proof.Machine

/-! ### Fault entries with the word written as a sum -/

/-- The fault entry of an instruction, its word written otherwise. -/
theorem raisedAs_takeFault (s : State) {w : Word} {i : Instr} (h : w = encode i) (c : Cause) (d : Option Nat) :
    RaisedAs s (s.takeFault (some (encode i)) { cause := c, detail := d }) c (some w) d := by
  rw [h]; rfl

/-! ### Return and call (R120, R122, R130) -/

/-- The frame of a return. -/
theorem keeps_popped (s : State) (sp : Fin 17) (pc : Word) : Keeps [.sp] [] [] s { s with sp := sp, pc := pc } := by
  simp [Keeps, State.reg]

/-- The frame of a call. -/
theorem keeps_pushed (s : State) (stack : Vector Word 16) (sp : Fin 17) (pc : Word) :
    Keeps [.stack, .sp] [] [] s { s with stack := stack, sp := sp, pc := pc } := by
  simp [Keeps, State.reg]

/-- Settles O17: a return is a pop, or the fault entry on an empty stack. -/
theorem returnPopsOrUnderflows : Obligations.ReturnPopsOrUnderflows := by
  refine ⟨decodeWord_encode .ret, fun s => ⟨fun j hj => ?pops, fun h0 => ?underflows⟩⟩
  case pops => exact ⟨_, exec_ret_of_sp s j hj, rfl, rfl, keeps_popped s _ _, badPcFaultsNext _⟩
  case underflows => exact ⟨_, exec_ret_of_empty s h0, raisedAs_takeFault s (i := .ret) rfl _ _⟩

/-- A call with room on the stack. -/
theorem exec_callAddr_of_sp (nnn : Addr) (s : State) (j : Fin 16) (hj : s.sp.val = j.val) :
    exec (.callAddr nnn) s = .next { s with
      stack := s.stack.set j.val (s.pc + 2)
      sp := ⟨j.val + 1, by omega⟩
      pc := zextAddr nnn } := by
  rw [exec_callAddr, dif_pos (by omega)]
  simp only [hj]

/-- Settles O19: a call is a push and a jump, or the fault entry on a full stack. -/
theorem callPushesOrOverflows : Obligations.CallPushesOrOverflows := by
  refine fun nnn s => ⟨fun j hj => ?pushes, fun hfull => ?overflows⟩
  case pushes =>
    refine ⟨_, exec_callAddr_of_sp nnn s j hj, Vector.getElem_set_self _, fun k hk => ?_, rfl, zextAddr_toNat nnn,
      keeps_pushed s _ _ _, badPcFaultsNext _⟩
    exact Vector.getElem_set_ne j.isLt _ fun h => hk (Fin.ext h.symm)
  case overflows =>
    refine ⟨_, ?_, raisedAs_takeFault s (i := .callAddr nnn) (ofNat_eq_encodeNNN 0x2 nnn) _ _⟩
    rw [exec_callAddr, dif_neg (by omega)]

/-- Settles O20: the sum of the meaning does not wrap. -/
theorem computedJumpAddsV0 : Obligations.ComputedJumpAddsV0 := fun nnn s =>
  ⟨_, exec_jpV0Addr nnn s, zextAddr_add_zextByte_toNat nnn (s.reg 0), keeps_setPc [] [] [] s _, badPcFaultsNext _⟩

/-- Settles O21: the entry the return pops is the one the call pushed. -/
theorem callThenReturnRoundTrip : Obligations.CallThenReturnRoundTrip := by
  intro nnn s t u v hroom hcall hsp hstack hret
  rw [exec_callAddr_of_sp nnn s ⟨s.sp.val, hroom⟩ rfl] at hcall
  cases hcall
  rw [exec_ret_of_sp u ⟨s.sp.val, hroom⟩ (congrArg Fin.val hsp)] at hret
  cases hret
  refine ⟨?_, rfl, rfl⟩
  simp [hstack]

/-! ### Skips (R124 to R127, R220, R221) -/

/-- The `pc` of a skip whose condition is `p`. -/
theorem skipIf_pc_of_iff (s : State) {c : Bool} {p : Prop} [Decidable p] (h : c = true ↔ p) :
    (s.skipIf c).pc = s.pc + (if p then 4 else 2) := by
  rw [State.skipIf_pc]
  by_cases hp : p <;> simp [h, hp]

/-- The `pc` of a skip whose condition is the negation of `p`. -/
theorem skipIf_pc_of_iff_not (s : State) {c : Bool} {p : Prop} [Decidable p] (h : c = true ↔ ¬ p) :
    (s.skipIf c).pc = s.pc + (if p then 2 else 4) := by
  rw [skipIf_pc_of_iff s h, ite_not]

theorem beq_iff_toNat_eq (a b : Byte) : (a == b) = true ↔ a.toNat = b.toNat := by
  rw [beq_iff_eq, BitVec.toNat_inj]

theorem bne_iff_not_toNat_eq (a b : Byte) : (a != b) = true ↔ ¬ a.toNat = b.toNat := by
  rw [bne_iff_ne, ne_eq, BitVec.toNat_inj]

section
variable (x y : Reg) (nn : Byte) (s : State)

theorem exec_seVxByte : exec (.seVxByte x nn) s = .next (s.skipIf (s.reg x == nn)) := rfl

theorem exec_sneVxByte : exec (.sneVxByte x nn) s = .next (s.skipIf (s.reg x != nn)) := rfl

theorem exec_seVxVy : exec (.seVxVy x y) s = .next (s.skipIf (s.reg x == s.reg y)) := rfl

theorem exec_sneVxVy : exec (.sneVxVy x y) s = .next (s.skipIf (s.reg x != s.reg y)) := rfl

/-- A skip writes `pc` alone. -/
theorem keeps_skipIf (c : Bool) : Keeps [] [] [] s (s.skipIf c) := keeps_setPc [] [] [] s _

end

/-- Settles O22: each word is the encoder's, and each skip writes `pc` by its condition. -/
theorem skipsAdvanceByFourOrTwo : Obligations.SkipsAdvanceByFourOrTwo := by
  refine ⟨fun x nn s => ⟨decodeWord_of_eq_encode (ofNat_eq_encodeXNN 0x3 x nn), _, exec_seVxByte x nn s, ?_,
      keeps_skipIf s _, badPcFaultsNext _⟩,
    fun x nn s => ⟨decodeWord_of_eq_encode (ofNat_eq_encodeXNN 0x4 x nn), _, exec_sneVxByte x nn s, ?_,
      keeps_skipIf s _, badPcFaultsNext _⟩,
    fun x y s => ⟨decodeWord_of_eq_encode (ofNat_eq_encodeXYN 0x5 0x0 x y), _, exec_seVxVy x y s, ?_,
      keeps_skipIf s _, badPcFaultsNext _⟩,
    fun x y s => ⟨decodeWord_of_eq_encode (ofNat_eq_encodeXYN 0x9 0x0 x y), _, exec_sneVxVy x y s, ?_,
      keeps_skipIf s _, badPcFaultsNext _⟩⟩
  · exact skipIf_pc_of_iff s (beq_iff_toNat_eq _ _)
  · exact skipIf_pc_of_iff_not s (bne_iff_not_toNat_eq _ _)
  · exact skipIf_pc_of_iff s (beq_iff_toNat_eq _ _)
  · exact skipIf_pc_of_iff_not s (bne_iff_not_toNat_eq _ _)

/-- Settles O42: a key test is a skip on the key its register names, or the fault entry. -/
theorem keySkipsTestTheKey : Obligations.KeySkipsTestTheKey := by
  refine fun x s => ⟨fun k hk => ⟨⟨_, exec_skpVx_of_key s x k hk, ?pressed, keeps_skipIf s _⟩,
      ⟨_, exec_sknpVx_of_key s x k hk, ?released, keeps_skipIf s _⟩⟩,
    fun h => ⟨⟨_, exec_skpVx_of_lt s x h, ?raises⟩, ⟨_, exec_sknpVx_of_lt s x h, ?raises'⟩⟩⟩
  case pressed => exact skipIf_pc_of_iff s beq_iff_eq
  case released => exact skipIf_pc_of_iff_not s (by simp)
  case raises => exact raisedAs_takeFault s (ofNat_eq_encodeXNN_fixedFirst 0xE x 0x9E) _ _
  case raises' => exact raisedAs_takeFault s (ofNat_eq_encodeXNN_fixedFirst 0xE x 0xA1) _ _

/-! ### The flag-setting forms of the ALU (R150, R158 to R162) -/

theorem flagByte_toNat (c : Bool) : (flagByte c).toNat = if c = true then 1 else 0 := by
  cases c <;> rfl

/-- A flag that is a bit of a register. -/
theorem flagByte_getLsbD_toNat (b : Byte) (i : Nat) : (flagByte (b.getLsbD i)).toNat = b.toNat / 2 ^ i % 2 := by
  rw [flagByte_toNat, BitVec.getLsbD, Nat.testBit_eq_decide_div_mod_eq]
  split
  · next h => simpa using (of_decide_eq_true h).symm
  · next h => simp at h; omega

section
variable (x y : Reg) (flag result : Byte) (s : State)

theorem exec_addVxVy : exec (.addVxVy x y) s =
    .next (s.writeFlagged x (carryFlag (s.reg x) (s.reg y)) (s.reg x + s.reg y)).nextPc := rfl

theorem exec_subVxVy : exec (.subVxVy x y) s =
    .next (s.writeFlagged x (notBorrowFlag (s.reg x) (s.reg y)) (s.reg x - s.reg y)).nextPc := rfl

theorem exec_subnVxVy : exec (.subnVxVy x y) s =
    .next (s.writeFlagged x (notBorrowFlag (s.reg y) (s.reg x)) (s.reg y - s.reg x)).nextPc := rfl

theorem exec_shrVxVy : exec (.shrVxVy x y) s =
    .next (s.writeFlagged x (shiftedOutLow (s.reg y)) (s.reg y >>> 1)).nextPc := rfl

theorem exec_shlVxVy : exec (.shlVxVy x y) s =
    .next (s.writeFlagged x (shiftedOutHigh (s.reg y)) (s.reg y <<< 1)).nextPc := rfl

/-- V[X] is written last, so it holds the result even for X = F (decision D13). -/
theorem reg_nextPc_writeFlagged_self : (s.writeFlagged x flag result).nextPc.reg x = result := by
  rw [State.reg_nextPc, State.reg_writeFlagged, if_pos rfl]

/-- VF holds the flag unless it is the destination. -/
theorem reg_nextPc_writeFlagged_VF (hx : x ≠ VF) : (s.writeFlagged x flag result).nextPc.reg VF = flag := by
  rw [State.reg_nextPc, State.reg_writeFlagged, if_neg hx.symm, if_pos rfl]

/-- The frame of a form that sets a flag. -/
theorem keeps_nextPc_writeFlagged : Keeps [] [x, VF] [] s (s.writeFlagged x flag result).nextPc := by
  simp +contextual [Keeps, State.reg_writeFlagged]

end

/-- The difference of two bytes, on integers. -/
theorem sub_toNat_int (a b : Byte) : ((a - b).toNat : Int) = ((a.toNat : Int) - b.toNat) % 256 := by
  have := b.isLt
  rw [BitVec.toNat_sub]
  omega

theorem carryFlag_toNat (a b : Byte) : (carryFlag a b).toNat = if 255 < a.toNat + b.toNat then 1 else 0 := by
  simp only [carryFlag, flagByte_toNat, decide_eq_true_iff, gt_iff_lt]

theorem notBorrowFlag_toNat (a b : Byte) : (notBorrowFlag a b).toNat = if b.toNat ≤ a.toNat then 1 else 0 := by
  simp only [notBorrowFlag, flagByte_toNat, decide_eq_true_iff, ge_iff_le]

/-- Settles O25: the flag and the sum, in the order of the two writes. -/
theorem addSetsCarry : Obligations.AddSetsCarry := by
  intro x y s
  refine ⟨_, exec_addVxVy x y s, ?_, fun hx => ?_, rfl, keeps_nextPc_writeFlagged x _ _ s⟩
  · rw [reg_nextPc_writeFlagged_self, BitVec.toNat_add]
  · rw [reg_nextPc_writeFlagged_VF x _ _ s hx, carryFlag_toNat]

/-- Settles O26: the flag and the difference, with the operands in each order. -/
theorem subtractionsSetNotBorrow : Obligations.SubtractionsSetNotBorrow := by
  intro x y s
  refine ⟨⟨_, exec_subVxVy x y s, ?_, fun hx => ?_, rfl, keeps_nextPc_writeFlagged x _ _ s⟩,
    ⟨_, exec_subnVxVy x y s, ?_, fun hx => ?_, rfl, keeps_nextPc_writeFlagged x _ _ s⟩⟩
  · rw [reg_nextPc_writeFlagged_self, sub_toNat_int]
  · rw [reg_nextPc_writeFlagged_VF x _ _ s hx, notBorrowFlag_toNat]
  · rw [reg_nextPc_writeFlagged_self, sub_toNat_int]
  · rw [reg_nextPc_writeFlagged_VF x _ _ s hx, notBorrowFlag_toNat]

/-- Settles O27: the bit moved out and the shifted value. -/
theorem shiftsReadVyAndSetTheBitMovedOut : Obligations.ShiftsReadVyAndSetTheBitMovedOut := by
  intro x y s
  have := (s.reg y).isLt
  refine ⟨⟨_, exec_shrVxVy x y s, ?_, fun hx => ?_, rfl, keeps_nextPc_writeFlagged x _ _ s⟩,
    ⟨_, exec_shlVxVy x y s, ?_, fun hx => ?_, rfl, keeps_nextPc_writeFlagged x _ _ s⟩⟩
  · rw [reg_nextPc_writeFlagged_self, BitVec.toNat_ushiftRight, Nat.shiftRight_eq_div_pow, Nat.pow_one]
  · rw [reg_nextPc_writeFlagged_VF x _ _ s hx, shiftedOutLow, flagByte_getLsbD_toNat, Nat.pow_zero, Nat.div_one]
  · rw [reg_nextPc_writeFlagged_self, BitVec.toNat_shiftLeft, Nat.shiftLeft_eq, Nat.pow_one, Nat.mul_comm]
  · rw [reg_nextPc_writeFlagged_VF x _ _ s hx, shiftedOutHigh, flagByte_getLsbD_toNat]
    omega

/-! ### CXNN and FX29 (R163, R182) -/

theorem exec_rndVxByte (x : Reg) (nn : Byte) (s : State) :
    exec (.rndVxByte x nn) s =
      .next (s.drawByte.2.setReg x (Config.randomByte s.draws &&& nn)).nextPc := rfl

/-- The frame of a counted draw. -/
theorem keeps_nextPc_drawByte (x : Reg) (b : Byte) (s : State) :
    Keeps [.draws] [x] [] s (s.drawByte.2.setReg x b).nextPc := by
  have hreg (r : Reg) : s.drawByte.2.reg r = s.reg r := rfl
  simp +contextual [Keeps, hreg]

/-- Settles O28: a bit clear in the mask is clear in the result, whatever the byte drawn. -/
theorem randomByteIsMasked : Obligations.RandomByteIsMasked := by
  intro x nn s
  refine ⟨_, exec_rndVxByte x nn s, State.reg_nextPc_setReg_self x _ _, fun b hb => ?_, rfl, rfl,
    keeps_nextPc_drawByte x _ s⟩
  rw [State.reg_nextPc_setReg_self]
  exact (BitVec.getElem_and b.isLt).trans (by simp [show nn[b.val] = false from hb])

theorem exec_ldFVx (x : Reg) (s : State) : exec (.ldFVx x) s = .next (s.setIndex (zextByte (s.reg x) * 5)) := rfl

/-- Settles O31: five times a byte does not wrap in 16 bits. -/
theorem fontPointerIsFiveTimesVx : Obligations.FontPointerIsFiveTimesVx := by
  intro x s
  refine ⟨_, exec_ldFVx x s, ?_, rfl, keeps_setIndex s _⟩
  have := (s.reg x).isLt
  have hfive : (5 : Word).toNat = 5 := rfl
  rw [State.setIndex_I, BitVec.toNat_mul, zextByte_toNat, hfive]
  omega

/-! ### Timers and the key wait (R222 to R225, R295) -/

section
variable (x : Reg) (s : State)

theorem exec_ldVxDT : exec (.ldVxDT x) s = .next (s.setReg x s.DT).nextPc := rfl

theorem exec_ldDTVx : exec (.ldDTVx x) s = .next ({ s with DT := s.reg x } : State).nextPc := rfl

theorem exec_ldSTVx : exec (.ldSTVx x) s = .next ({ s with ST := s.reg x } : State).nextPc := rfl

theorem exec_ldVxK : exec (.ldVxK x) s = .next { s with waitKey := some x } := rfl

theorem keeps_nextPc_DT (b : Byte) : Keeps [.DT] [] [] s ({ s with DT := b } : State).nextPc := by
  simp [Keeps, State.reg]

theorem keeps_nextPc_ST (b : Byte) : Keeps [.ST] [] [] s ({ s with ST := b } : State).nextPc := by
  simp [Keeps, State.reg]

theorem keeps_waitKey (w : Option Reg) : Keeps [.waitKey] [] [] s { s with waitKey := w } := by
  simp [Keeps, State.reg]

end

/-- Settles O43: each word is the encoder's, and each meaning moves one timer. -/
theorem timerReadsAndWrites : Obligations.TimerReadsAndWrites := fun x s =>
  ⟨⟨decodeWord_of_eq_encode (ofNat_eq_encodeXNN_fixedFirst 0xF x 0x07), _, exec_ldVxDT x s,
      s.reg_nextPc_setReg_self x _, rfl, keeps_nextPc_setReg x _ s⟩,
    ⟨decodeWord_of_eq_encode (ofNat_eq_encodeXNN_fixedFirst 0xF x 0x15), _, exec_ldDTVx x s, rfl, rfl,
      keeps_nextPc_DT s _⟩,
    ⟨decodeWord_of_eq_encode (ofNat_eq_encodeXNN_fixedFirst 0xF x 0x18), _, exec_ldSTVx x s, rfl, rfl,
      keeps_nextPc_ST s _⟩⟩

/-- Settles O45. -/
theorem keyWaitIsSetWithoutAdvancing : Obligations.KeyWaitIsSetWithoutAdvancing := fun x s =>
  ⟨_, exec_ldVxK x s, rfl, rfl, keeps_waitKey s _⟩

/-- A fetched instruction that writes no record is followed by the Timer Unit. -/
theorem step_of_exec_running {s u : State} {op : Word} {i : Instr} (hop : FetchesWord s op)
    (hd : decodeWord op = some i) (hu : exec i s.clearOutputs = .next u) (hf : u.fault = none) :
    step s = .next u.timerUpdate := by
  rw [step_of_fetchesWord hop hd, hu, endStep_next, hf]
  rfl

/-- Settles O44: between the write and the read the Timer Unit counts DT down once. -/
theorem timerReadBackIsOneLower : Obligations.TimerReadBackIsOneLower := by
  intro s t u op op' x y hop hd hstep hop' hd' hstep'
  rw [step_of_exec_running hop hd (exec_ldDTVx x _) hop.fault_eq_none] at hstep
  rw [step_of_exec_running hop' hd' (exec_ldVxDT y _) hop'.fault_eq_none] at hstep'
  cases hstep'
  have hread : (t.clearOutputs.setReg y t.clearOutputs.DT).nextPc.timerUpdate.reg y = t.DT :=
    State.reg_nextPc_setReg_self y t.DT t.clearOutputs
  have hDT : t.DT = countdown (s.reg x) := by cases hstep; rfl
  rw [hread, hDT, countdown_toNat]

end Sys2Proof.Machine
end

section
/-! PROOFS. The memory statements (spec/20_memory.md, spec/43_index_memory.md R183 to R185): stores and loads at I, the
frames they keep and the faults they raise; and code stored over the program. -/

namespace Sys2Proof.Machine

/-- Settles O29: the read law, and the canonical form of a write above the font region. -/
theorem readAfterWrite : Obligations.ReadAfterWrite := fun m a b v =>
  ⟨m.read_write a b v, fun hwf hlo ha => m.wf_write hwf hlo ha⟩

/-! ### Stores (R183, R184) -/

/-- The frame of a store: only the addresses of the range can change. -/
theorem keeps_writeAll (s : State) (a : Nat) (bytes : List Byte) (pc : Word) {addrs : List Nat}
    (haddrs : ∀ b, a ≤ b → b - a < bytes.length → b ∈ addrs) :
    Keeps [] [] addrs s { s with mem := s.mem.writeAll a bytes, pc := pc } := by
  have hmem : ∀ b, b ∉ addrs → (s.mem.writeAll a bytes).read b = s.mem.read b := by
    intro b hb
    refine s.mem.read_writeAll_of_outside ?_
    by_contra hin
    exact hb (haddrs b (by omega) (by omega))
  simpa [Keeps, State.reg] using hmem

section
variable (x : Reg) (s : State)

/-- FX33 with its three bytes in memory above the font region. -/
theorem exec_ldBVx_of_fits (hlo : 0x50 ≤ s.I.toNat) (hhi : s.I.toNat + 3 ≤ 4096) :
    exec (.ldBVx x) s = .next { s with mem := s.mem.writeAll s.I.toNat (decimalDigits (s.reg x)), pc := s.pc + 2 } := by
  rw [exec_ldBVx, if_neg (by omega), if_pos hhi]

/-- FX55 with its bytes in memory above the font region. -/
theorem exec_ldMemVx_of_fits (hlo : 0x50 ≤ s.I.toNat) (hhi : s.I.toNat + x.val < 4096) :
    exec (.ldMemVx x) s = .next { s with mem := s.mem.writeAll s.I.toNat (s.regsUpTo x), pc := s.pc + 2 } := by
  rw [exec_ldMemVx, if_neg (by omega), if_pos (by omega)]

/-- FX55 lays V0 to VX out from I. -/
theorem read_writeAll_regsUpTo (m : Memory) (a : Nat) (k : Reg) (hk : k ≤ x) :
    (m.writeAll a (s.regsUpTo x)).read (a + k.val) = s.reg k := by
  have hlen : k.val < (s.regsUpTo x).length := by
    rw [State.length_regsUpTo]
    exact Nat.lt_succ_of_le hk
  rw [m.read_writeAll_add a hlen, State.getElem_regsUpTo]

end

@[simp] theorem length_decimalDigits (b : Byte) : (decimalDigits b).length = 3 := rfl

/-- The three digits of a byte, as numbers. -/
theorem toNat_getElem_decimalDigits (b : Byte) :
    (decimalDigits b)[0].toNat = b.toNat / 100 ∧ (decimalDigits b)[1].toNat = b.toNat / 10 % 10 ∧
      (decimalDigits b)[2].toNat = b.toNat % 10 := by
  have := b.isLt
  simp only [decimalDigits, List.getElem_cons_zero, List.getElem_cons_succ, BitVec.toNat_ofNat]
  omega

/-- Settles O32: the digits are the bytes of the range, at its three addresses. -/
theorem decimalDigitsAreStored : Obligations.DecimalDigitsAreStored := by
  intro x s hlo hhi
  obtain ⟨hhundreds, htens, hones⟩ := toNat_getElem_decimalDigits (s.reg x)
  have hread (k : Nat) (hk : k < (decimalDigits (s.reg x)).length) :=
    s.mem.read_writeAll_add s.I.toNat hk
  refine ⟨_, exec_ldBVx_of_fits x s hlo hhi, ?_, ?_, ?_, rfl, keeps_writeAll s _ _ _ fun b hb hlt => ?_⟩
  · exact (congrArg BitVec.toNat (hread 0 (by simp))).trans hhundreds
  · exact (congrArg BitVec.toNat (hread 1 (by simp))).trans htens
  · exact (congrArg BitVec.toNat (hread 2 (by simp))).trans hones
  · rw [length_decimalDigits] at hlt
    simp only [List.mem_cons, List.not_mem_nil, or_false]
    omega

/-- Settles O33: the registers are the bytes of the range. -/
theorem registersAreStored : Obligations.RegistersAreStored := by
  intro x s hlo hhi
  refine ⟨_, exec_ldMemVx_of_fits x s hlo hhi, fun k hk => read_writeAll_regsUpTo x s s.mem s.I.toNat k hk, rfl,
    keeps_writeAll s _ _ _ fun b hb hlt => ?_⟩
  rw [State.length_regsUpTo] at hlt
  exact List.mem_map.2 ⟨b - s.I.toNat, List.mem_range.2 hlt, by omega⟩

/-- Settles O34: the branches of the two stores that raise. -/
theorem storesOutsideRamRaise : Obligations.StoresOutsideRamRaise := by
  intro x s
  have hdigits := ofNat_eq_encodeXNN_fixedFirst 0xF x 0x33
  have hregs := ofNat_eq_encodeXNN_fixedFirst 0xF x 0x55
  refine ⟨fun hfont => ⟨⟨_, ?_, raisedAs_takeFault s (i := .ldBVx x) hdigits _ _⟩,
      ⟨_, ?_, raisedAs_takeFault s (i := .ldMemVx x) hregs _ _⟩⟩,
    fun hpast => ⟨_, ?_, raisedAs_takeFault s (i := .ldBVx x) hdigits _ _⟩,
    fun hpast => ⟨_, ?_, raisedAs_takeFault s (i := .ldMemVx x) hregs _ _⟩⟩
  · rw [exec_ldBVx, if_pos hfont]
  · rw [exec_ldMemVx, if_pos hfont]
  · rw [exec_ldBVx, if_neg (by omega), if_neg (by omega)]
  · have := x.isLt
    rw [exec_ldMemVx, if_neg (by omega), if_neg (by omega)]

/-! ### Loads (R185) -/

/-- FX65 reads memory from I into V0 to VX, and leaves the registers above. -/
theorem getElem_loadRegsFrom_reads (x k : Reg) (s : State) :
    (loadRegsFrom s.V 0 ((List.range (x.val + 1)).map fun k => s.mem.read (s.I.toNat + k)))[k] =
      if k ≤ x then s.mem.read (s.I.toNat + k.val) else s.reg k := by
  rw [getElem_loadRegsFrom]
  simp only [List.length_map, List.length_range, Nat.sub_zero, Nat.zero_le, true_and, List.getElem_map,
    List.getElem_range, Nat.lt_succ_iff, Fin.le_def]
  rfl

/-- The frame of a load: only V0 to VX can change. -/
theorem keeps_loaded (x : Reg) (s : State) (V : Vector Byte 16) (pc : Word)
    (hV : ∀ r : Reg, ¬ r ≤ x → V[r] = s.reg r) :
    Keeps [] ((List.finRange 16).filter (· ≤ x)) [] s { s with V := V, pc := pc } := by
  have hreg : ∀ r : Reg, r ∉ (List.finRange 16).filter (· ≤ x) → V[r] = s.reg r := by
    intro r hr
    exact hV r fun hle => hr (List.mem_filter.2 ⟨List.mem_finRange r, decide_eq_true hle⟩)
  refine ⟨hreg, ?_⟩
  simp

/-- Settles O35: the two branches of the load. -/
theorem registersAreLoaded : Obligations.RegistersAreLoaded := by
  refine fun x s => ⟨fun hfits => ?loads, fun hpast => ?raises⟩
  case loads =>
    have hexec := exec_ldVxMem s x
    rw [if_pos (by omega)] at hexec
    refine ⟨_, hexec, fun k hk => ?_, rfl, keeps_loaded x s _ _ fun r hr => ?_⟩
    · exact (getElem_loadRegsFrom_reads x k s).trans (if_pos hk)
    · exact (getElem_loadRegsFrom_reads x r s).trans (if_neg hr)
  case raises =>
    refine ⟨_, ?_, raisedAs_takeFault s (i := .ldVxMem x) (ofNat_eq_encodeXNN_fixedFirst 0xF x 0x65) _ _⟩
    rw [exec_ldVxMem, if_neg (by omega)]

/-! ### Code stored over the program (R67) -/

/-- Settles O36: the address I is that of the next fetch, where the store has put V0 and V1. -/
theorem storedCodeIsFetchedNext : Obligations.StoredCodeIsFetchedNext := by
  intro x s t hI hlo hhi hx h
  rw [exec_ldMemVx_of_fits x s hlo hhi] at h
  cases h
  have hpc : (s.pc + 2).toNat = s.I.toNat := by rw [hI, toNat_add_two (by omega)]
  have h0 := read_writeAll_regsUpTo x s s.mem s.I.toNat 0 (Fin.zero_le x)
  have h1 := read_writeAll_regsUpTo x s s.mem s.I.toNat 1 hx
  simp only [State.fetchWord, wordOfBytes, hpc]
  exact congrArg₂ (fun hi lo : Byte => (hi ++ lo : BitVec 16)) h0 h1

end Sys2Proof.Machine
end

section
/-! PROOFS. The statements on reset and the ports (spec/60_exceptions.md R270, R271; spec/70_reset_and_hazards.md R290,
R292): every element at reset, the key and frame ports, boot, and the numbering of the display cells. -/

namespace Sys2Proof.Machine

/-! ### Reset (R290) -/

/-- A memory with nothing listed reads as FONT below 0x050 and as 0 above. -/
theorem Memory.read_of_cells_nil (font : Vector Byte 80) (a : Nat) :
    (Memory.mk font []).read a = if h : a < 80 then font[a] else 0 := rfl

theorem resetValues_initial (font : Vector Byte 80) (draws : Nat) :
    ResetValues font { State.initial font with draws := draws } := by
  refine ⟨fun a => ?font, fun a ha => ?above, fun r => ?regs, rfl, rfl, fun j => ?stack, rfl, rfl, rfl,
    fun x y => pixel_blankScreen x y, fun k => ?keys, rfl, rfl, rfl, rfl, rfl⟩
  case font => exact (Memory.read_of_cells_nil font a.val).trans (dif_pos a.isLt)
  case above => exact (Memory.read_of_cells_nil font a).trans (dif_neg (by omega))
  case regs | stack | keys => exact Vector.getElem_replicate _

/-- Settles O46: `hostInitialize` answers the reset state for the FONT held, which holds that FONT again. -/
theorem initializeResetsEveryElement : Obligations.InitializeResetsEveryElement :=
  ⟨fun s => ⟨resetValues_initial s.mem.font s.draws, rfl⟩, resetValues_initial defaultFont 0⟩

/-! ### The key and frame ports (R270, R271) -/

theorem setKeyState_of_lt {index : Nat} (h : index < 16) (pressed : Bool) (s : State) :
    setKeyState index pressed s = { s with key := s.key.setIfInBounds index pressed } := by
  have hok : keyIndexOk index = true := decide_eq_true h
  rw [setKeyState, if_pos hok]

/-- Settles O48. -/
theorem keyPortAndFramePort : Obligations.KeyPortAndFramePort := by
  refine fun s => ⟨fun k p => ?_, fun index p h => ?_, rfl⟩
  · rw [setKeyState_of_lt k.isLt]
    exact ⟨Vector.getElem_setIfInBounds_self k.isLt,
      fun j hj => Vector.getElem_setIfInBounds_ne j.isLt fun h => hj (Fin.ext h.symm), rfl⟩
  · have hbad : keyIndexOk index = false := decide_eq_false (by omega)
    rw [setKeyState, hbad]
    rfl

/-! ### Boot (R292) -/

/-- Settles O49: `hostInitialize` leaves a state that fetches at 0x200, where the program's first two bytes are. -/
theorem bootFetchesTheProgramsFirstWord : Obligations.BootFetchesTheProgramsFirstWord := by
  intro hi lo rest s hfits
  have hlen : (hi :: lo :: rest).length ≤ 3584 := hfits
  refine ⟨_, rfl, (fetchesWord_iff _ _).2 ?_⟩
  simp only [applyPort, loadProgram_of_length_le hlen]
  refine ⟨⟨rfl, rfl, (by decide : pcOk 0x0200 = true)⟩, ?_⟩
  have hread (k : Nat) (hk : k < (hi :: lo :: rest).length) :=
    (hostInitialize s).mem.read_writeAll_add 512 hk
  exact (congrArg₂ wordOfBytes (hread 0 (by simp)) (hread 1 (by simp))).symm

/-! ### Display cells (R30, decision D17) -/

/-- In a list of rows of one length, the cells are numbered row by row. -/
theorem getElem?_flatten_of_length {α : Type} {m : Nat} (rows : List (List α)) (hrows : ∀ row ∈ rows, row.length = m)
    (x y : Nat) (hx : x < m) : rows.flatten[m * y + x]? = rows[y]?.bind (·[x]?) := by
  induction rows generalizing y with
  | nil => simp
  | cons row rest ih =>
    have hrow : row.length = m := hrows row List.mem_cons_self
    cases y with
    | zero =>
      rw [List.flatten_cons, List.getElem?_append_left (by omega), Nat.mul_zero, Nat.zero_add]
      rfl
    | succ y =>
      rw [List.flatten_cons, List.getElem?_append_right (by rw [hrow, Nat.mul_succ]; omega),
        List.getElem?_cons_succ, ← ih (fun r hr => hrows r (List.mem_cons_of_mem row hr)) y, hrow]
      congr 1
      rw [Nat.mul_succ]
      omega

/-- Settles O50: the 32 rows of 64 cells, in order. -/
theorem displayCellsAreRowMajor : Obligations.DisplayCellsAreRowMajor := by
  intro s
  have hrows : ∀ row ∈ s.fb.toList.map Vector.toList, row.length = 64 := by
    intro row hrow
    obtain ⟨r, -, rfl⟩ := List.mem_map.1 hrow
    exact r.length_toList
  refine ⟨?_, fun x y => ?_⟩
  · rw [displayCells, List.length_flatten, List.map_eq_replicate_iff.2 hrows, List.sum_replicate,
      List.length_map, Vector.length_toList]
    rfl
  · rw [displayCells, getElem?_flatten_of_length _ hrows x.val y.val x.isLt]
    simp

end Sys2Proof.Machine
end

section
/-! PROOFS. The display statements on DXYN (spec/44_display.md R200, R201, R203, R204): what one draw does to each pixel and
to VF, where it raises, and two equal draws. -/

namespace Sys2Proof.Machine

/-! ### The pixels a draw covers -/

/-- The pixel is one that DXYN covers in `s`. -/
def DrawCovers (x y : Reg) (n : Count) (s : State) (px : Fin 64) (py : Fin 32) : Prop :=
  SpriteCovers s.mem s.I.toNat (s.reg x).toNat (s.reg y).toNat n.val px py

/-- The sprite rows of DXYN in `s`. -/
def spriteRows (n : Count) (s : State) : List Byte := (List.range n.val).map fun r => s.mem.read (s.I.toNat + r)

/-- The framebuffer and the collision flag after the drawing of DXYN in `s`. -/
def drawn (x y : Reg) (n : Count) (s : State) : Canvas :=
  drawRows (s.fb, false) (s.reg x).toNat (s.reg y).toNat (spriteRows n s)

theorem length_spriteRows (n : Count) (s : State) : (spriteRows n s).length = n.val := by
  rw [spriteRows, List.length_map, List.length_range]

section
variable {x y : Reg} {n : Count} {s : State} {px : Fin 64} {py : Fin 32}

/-- The rows cover what the statements' words say (R201, R203). -/
theorem rowsCover_spriteRows_iff :
    rowsCover (s.reg x).toNat (s.reg y).toNat (spriteRows n s) px py ↔ DrawCovers x y n s px py := by
  constructor
  · rintro ⟨r, hr, col, hcol, hbit, rfl, rfl⟩
    rw [length_spriteRows] at hr
    exact ⟨r, col, hr, hcol, by simpa [spriteRows, spriteBit] using hbit, rfl, rfl⟩
  · rintro ⟨r, col, hr, hcol, hbit, hx, hy⟩
    refine ⟨r, by rwa [length_spriteRows], col, hcol, ?_, Fin.ext hx, Fin.ext hy⟩
    simpa [spriteRows, spriteBit] using hbit

/-- All the drawing of DXYN does, its at most 15 rows covering no pixel twice. -/
theorem drawn_spec (x y : Reg) (n : Count) (s : State) :
    (∀ px py, (DrawCovers x y n s px py → pixel (drawn x y n s).1 px py = !pixel s.fb px py) ∧
      (¬ DrawCovers x y n s px py → pixel (drawn x y n s).1 px py = pixel s.fb px py)) ∧
    ((drawn x y n s).2 = true ↔ ∃ px py, DrawCovers x y n s px py ∧ pixel s.fb px py = true) := by
  have hlen : (spriteRows n s).length ≤ 32 := by rw [length_spriteRows]; omega
  have hspec := drawRows_spec (s.fb, false) (s.reg x).toNat (s.reg y).toNat (spriteRows n s) hlen
  simp only [Bool.false_eq_true, false_or, rowsCover_spriteRows_iff] at hspec
  exact hspec

theorem pixel_drawn_of_covers (h : DrawCovers x y n s px py) : pixel (drawn x y n s).1 px py = !pixel s.fb px py :=
  ((drawn_spec x y n s).1 px py).1 h

theorem pixel_drawn_of_not_covers (h : ¬ DrawCovers x y n s px py) :
    pixel (drawn x y n s).1 px py = pixel s.fb px py :=
  ((drawn_spec x y n s).1 px py).2 h

/-- The draw collides exactly when a covered pixel was on. -/
theorem collision_drawn_iff :
    (drawn x y n s).2 = true ↔ ∃ px py, DrawCovers x y n s px py ∧ pixel s.fb px py = true :=
  (drawn_spec x y n s).2

end

/-! ### The meaning of DXYN -/

section
variable (x y : Reg) (n : Count) (s : State)

/-- The state after a draw whose rows are in memory. -/
def afterDraw : State :=
  { s with
    fb := (drawn x y n s).1
    V := s.V.set VF (flagByte (drawn x y n s).2)
    dirty := true
    pc := s.pc + 2 }

theorem exec_drwVxVyNibble_of_fits (hfits : n.val = 0 ∨ s.I.toNat + n.val ≤ 4096) :
    exec (.drwVxVyNibble x y n) s = .next (afterDraw x y n s) := by
  rw [exec_drwVxVyNibble, if_pos hfits]
  rfl

theorem afterDraw_reg (r : Reg) :
    (afterDraw x y n s).reg r = if r = VF then flagByte (drawn x y n s).2 else s.reg r :=
  s.reg_setReg VF r _

theorem afterDraw_reg_VF : (afterDraw x y n s).reg VF = flagByte (drawn x y n s).2 := by
  rw [afterDraw_reg, if_pos rfl]

/-- The frame of a draw. -/
theorem keeps_afterDraw : Keeps [.fb, .dirty] [VF] [] s (afterDraw x y n s) := by
  refine ⟨fun r hr => ?_, ?_⟩
  · rw [afterDraw_reg, if_neg (mt List.mem_singleton.2 hr)]
  · simp [afterDraw]

end

theorem flagByte_eq_one_iff (c : Bool) : flagByte c = 1 ↔ c = true := by
  cases c <;> decide

theorem flagByte_eq_zero_iff (c : Bool) : flagByte c = 0 ↔ c = false := by
  cases c <;> decide

/-- Settles O38: the pixels and the flag of the drawing, in the state after it. -/
theorem drawFlipsTheCoveredPixels : Obligations.DrawFlipsTheCoveredPixels := by
  intro x y n s hfits
  refine ⟨_, exec_drwVxVyNibble_of_fits x y n s hfits,
    fun px py => ⟨pixel_drawn_of_covers, pixel_drawn_of_not_covers⟩, ?_, ?_, rfl, rfl, keeps_afterDraw x y n s⟩
  · rw [afterDraw_reg_VF]
    cases (drawn x y n s).2
    · exact Or.inl rfl
    · exact Or.inr rfl
  · rw [afterDraw_reg_VF, flagByte_eq_one_iff]
    exact collision_drawn_iff

/-- Settles O39: the branch of DXYN that raises. -/
theorem drawPastMemoryRaises : Obligations.DrawPastMemoryRaises := by
  intro x y n s hn hpast
  have hsum : 0xD000 + 0x100 * x.val + 0x10 * y.val + n.val =
      (0xD : BitVec 4).toNat * 0x1000 + (nibble n).toNat + 0x100 * x.val + 0x10 * y.val := by
    change _ = 0xD000 + n.val + 0x100 * x.val + 0x10 * y.val
    omega
  refine ⟨_, ?_, raisedAs_takeFault s (i := .drwVxVyNibble x y n) ?_ _ _⟩
  · rw [exec_drwVxVyNibble, if_neg (by omega)]
  · rw [hsum]
    exact ofNat_eq_encodeXYN 0xD (nibble n) x y

/-! ### Two equal draws (R204) -/

/-- Two states with equal coordinates, I and sprite bytes cover the same pixels. -/
theorem drawCovers_congr {x y : Reg} {n : Count} {s u : State} (hI : u.I = s.I) (hx : u.reg x = s.reg x)
    (hy : u.reg y = s.reg y)
    (hrows : ∀ r, r < n.val → u.mem.read (s.I.toNat + r) = s.mem.read (s.I.toNat + r)) (px : Fin 64) (py : Fin 32) :
    DrawCovers x y n u px py ↔ DrawCovers x y n s px py := by
  simp only [DrawCovers, SpriteCovers, hI, hx, hy]
  refine exists_congr fun r => exists_congr fun col => and_congr_right fun hr => ?_
  rw [hrows r hr]

/-- A byte other than 0 has a 1 bit, at some column of a sprite row. -/
theorem exists_spriteBit_of_ne_zero {b : Byte} (h : b ≠ 0) : ∃ col, col < 8 ∧ b.getLsbD (7 - col) = true := by
  by_contra hno
  refine h (BitVec.eq_of_getLsbD_eq fun i hi => ?_)
  rw [BitVec.ofNat_eq_ofNat, BitVec.getLsbD_zero, ← Bool.not_eq_true]
  intro hbit
  have hcol : 7 - (7 - i) = i := by omega
  exact hno ⟨7 - i, by omega, by rwa [hcol]⟩

/-- A draw covers some pixel exactly when some sprite row has a 1 bit. -/
theorem exists_drawCovers_iff (x y : Reg) (n : Count) (s : State) :
    (∃ px py, DrawCovers x y n s px py) ↔ ∃ r, r < n.val ∧ s.mem.read (s.I.toNat + r) ≠ 0 := by
  constructor
  · rintro ⟨px, py, r, col, hr, -, hbit, -, -⟩
    refine ⟨r, hr, fun h0 => ?_⟩
    rw [h0] at hbit
    simp at hbit
  · rintro ⟨r, hr, hne⟩
    obtain ⟨col, hcol, hbit⟩ := exists_spriteBit_of_ne_zero hne
    exact ⟨wrapX _, wrapY _, r, col, hr, hcol, hbit, rfl, rfl⟩

section
variable {x y : Reg} {n : Count} {s u : State} (hfb : u.fb = (drawn x y n s).1)
  (hcov : ∀ px py, DrawCovers x y n u px py ↔ DrawCovers x y n s px py)
include hfb hcov

/-- Each covered pixel flips twice. -/
theorem drawn_drawn_fb : (drawn x y n u).1 = s.fb := by
  refine framebuffer_ext fun px py => ?_
  by_cases h : DrawCovers x y n s px py
  · rw [pixel_drawn_of_covers ((hcov px py).2 h), hfb, pixel_drawn_of_covers h, Bool.not_not]
  · rw [pixel_drawn_of_not_covers (mt (hcov px py).1 h), hfb, pixel_drawn_of_not_covers h]

/-- The second draw collides exactly where the first turned a pixel on. -/
theorem collision_drawn_drawn_iff :
    (drawn x y n u).2 = true ↔ ∃ px py, DrawCovers x y n s px py ∧ pixel s.fb px py = false := by
  rw [collision_drawn_iff]
  refine exists_congr fun px => exists_congr fun py => ?_
  rw [hcov px py]
  refine and_congr_right fun h => ?_
  rw [hfb, pixel_drawn_of_covers h, Bool.not_eq_true']

end

/-- Settles O40: the second draw flips each covered pixel again, and collides where the first found it off; without a first
collision that is every covered pixel. -/
theorem drawTwiceRestoresTheScreen : Obligations.DrawTwiceRestoresTheScreen := by
  intro x y n s t u v hfits ht hfb hI hx hy hrows hv
  have hcov := drawCovers_congr hI hx hy hrows
  rw [exec_drwVxVyNibble_of_fits x y n s hfits] at ht
  rw [exec_drwVxVyNibble_of_fits x y n u (by rwa [hI])] at hv
  cases ht
  cases hv
  have hcollides : (afterDraw x y n u).reg VF = 1 ↔ ∃ px py, DrawCovers x y n s px py ∧ pixel s.fb px py = false := by
    rw [afterDraw_reg_VF, flagByte_eq_one_iff]
    exact collision_drawn_drawn_iff hfb hcov
  refine ⟨drawn_drawn_fb hfb hcov, hcollides, fun hclear => ?_⟩
  rw [afterDraw_reg_VF, flagByte_eq_zero_iff, Bool.eq_false_iff, ne_eq, collision_drawn_iff] at hclear
  rw [hcollides, ← exists_drawCovers_iff x y]
  refine exists_congr fun px => exists_congr fun py => and_iff_left_of_imp fun h => ?_
  rw [← Bool.not_eq_true]
  exact fun hon => hclear ⟨px, py, h, hon⟩

/-- The screen with every pixel on. -/
def litScreen : Framebuffer := Vector.replicate 32 (Vector.replicate 64 true)

theorem pixel_litScreen (x : Fin 64) (y : Fin 32) : pixel litScreen x y = true := by
  simp [pixel, litScreen]

/-- The reset state with every pixel on: I is at the first row of glyph 0, which has a 1 bit. -/
def litState : State := { State.reset with fb := litScreen }

/-- Refutes O41: on a screen with every pixel on, the first draw of glyph 0's first row finds no covered pixel off, so the
second collides with none, though the row has a 1 bit. -/
theorem not_secondDrawAlwaysCollides : ¬ Obligations.SecondDrawAlwaysCollides := by
  intro h
  have hfits : (1 : Count).val = 0 ∨ litState.I.toNat + (1 : Count).val ≤ 4096 := by decide
  have ht := exec_drwVxVyNibble_of_fits 0 0 1 litState hfits
  let u : State := { litState with fb := (afterDraw 0 0 1 litState).fb }
  have hv := exec_drwVxVyNibble_of_fits 0 0 1 u hfits
  have hrow : ∃ r, r < (1 : Count).val ∧ litState.mem.read (litState.I.toNat + r) ≠ 0 := ⟨0, by decide, by decide⟩
  have hcollides := (h 0 0 1 _ _ u _ hfits ht rfl rfl rfl rfl (fun _ _ => rfl) hv).2 hrow
  obtain ⟨-, hoff, -⟩ := drawTwiceRestoresTheScreen 0 0 1 _ _ u _ hfits ht rfl rfl rfl rfl (fun _ _ => rfl) hv
  obtain ⟨px, py, -, hpixel⟩ := hoff.1 hcollides
  have hon : litState.fb[py][px] = true := pixel_litScreen px py
  rw [hon] at hpixel
  cases hpixel

end Sys2Proof.Machine
end

section
/-! PROOFS. The whole-machine statements: the writers of each element (spec/10_state.md R20 to R32, spec/44_display.md R205,
spec/20_memory.md R54), the end of a halt (spec/60_exceptions.md R244), and what reaches only its output (R31, R38). -/

namespace Sys2Proof.Machine

/-! ### The writers of an element -/

/-- An element of the state that nothing in the cycle around the instructions writes. -/
structure OutsideTheCycle {α : Type} (f : State → α) : Prop where
  clearOutputs : ∀ s, f s.clearOutputs = f s
  resolveWait : ∀ s x k, f (s.resolveWait x k) = f s
  reportUnknown : ∀ s op, f (s.reportUnknown op) = f s
  takeFault : ∀ s op e, f (s.takeFault op e) = f s
  timerUpdate : ∀ s, f s.timerUpdate = f s

/-- Such an element changes in a step only by the fetched instruction, which completes. -/
theorem OutsideTheCycle.changed {α : Type} {f : State → α} (hf : OutsideTheCycle f) {s t : State}
    (h : step s = .next t) (hne : f t ≠ f s) :
    ∃ op i u, FetchesWord s op ∧ decodeWord op = some i ∧ CompletesWithin i s.clearOutputs u ∧ f t = f u := by
  cases step_kind h with
  | halted _ ht | stalled _ _ _ _ ht => exact absurd (by rw [ht, hf.clearOutputs]) hne
  | resolved _ _ _ _ _ ht => exact absurd (by rw [ht, hf.timerUpdate, hf.resolveWait, hf.clearOutputs]) hne
  | badPc _ _ _ ht => exact absurd (by rw [ht, State.badFetch, hf.takeFault]) hne
  | unknown _ _ _ ht => exact absurd (by rw [ht, hf.timerUpdate, hf.reportUnknown, hf.clearOutputs]) hne
  | raised _ _ _ _ _ _ _ _ ht => exact absurd (by rw [ht, hf.takeFault]) hne
  | completed op i u hop hd hu hframe ht => exact ⟨op, i, u, hop, hd, hframe, by rw [ht, hf.timerUpdate]⟩

theorem fb_outsideTheCycle : OutsideTheCycle State.fb :=
  ⟨fun _ => rfl, fun _ _ _ => rfl, fun _ _ => rfl, fun _ _ _ => rfl, fun _ => rfl⟩

theorem mem_outsideTheCycle : OutsideTheCycle State.mem :=
  ⟨fun _ => rfl, fun _ _ _ => rfl, fun _ _ => rfl, fun _ _ _ => rfl, fun _ => rfl⟩

theorem index_outsideTheCycle : OutsideTheCycle State.I :=
  ⟨fun _ => rfl, fun _ _ _ => rfl, fun _ _ => rfl, fun _ _ _ => rfl, fun _ => rfl⟩

theorem stack_outsideTheCycle : OutsideTheCycle State.stack :=
  ⟨fun _ => rfl, fun _ _ _ => rfl, fun _ _ => rfl, fun _ _ _ => rfl, fun _ => rfl⟩

theorem sp_outsideTheCycle : OutsideTheCycle State.sp :=
  ⟨fun _ => rfl, fun _ _ _ => rfl, fun _ _ => rfl, fun _ _ _ => rfl, fun _ => rfl⟩

theorem key_outsideTheCycle : OutsideTheCycle State.key :=
  ⟨fun _ => rfl, fun _ _ _ => rfl, fun _ _ => rfl, fun _ _ _ => rfl, fun _ => rfl⟩

section
variable {s t : State} (h : step s = .next t)
include h

/-- R31: no step writes the keypad. -/
theorem step_key : t.key = s.key := by
  by_contra hne
  obtain ⟨op, i, u, -, -, hframe, hu⟩ := key_outsideTheCycle.changed h hne
  exact hne (hu.trans hframe.key)

/-- No step writes FONT. -/
theorem step_font : t.mem.font = s.mem.font := by
  by_contra hne
  obtain ⟨op, i, u, -, -, hframe, hu⟩ := mem_outsideTheCycle.changed h fun hmem => hne (by rw [hmem])
  exact hne ((congrArg Memory.font hu).trans hframe.font)

/-- R54: no step writes the font region. -/
theorem step_fontRegion {a : Nat} (ha : a < 0x50) : t.mem.read a = s.mem.read a := by
  by_contra hne
  obtain ⟨op, i, u, -, -, hframe, hu⟩ := mem_outsideTheCycle.changed h fun hmem => hne (by rw [hmem])
  exact hne ((congrArg (Memory.read · a) hu).trans (hframe.fontRegion a ha))

/-- R32, R96: the key wait is set by FX0A, and cleared by its resolution. -/
theorem step_waitKey (hne : t.waitKey ≠ s.waitKey) :
    (∃ op x, FetchesWord s op ∧ decodeWord op = some (.ldVxK x) ∧ t.waitKey = some x) ∨
    (t.waitKey = none ∧ s.fault = none ∧ ∃ k : Fin 16, s.key[k] = true) := by
  cases step_kind h with
  | halted _ ht | stalled _ _ _ _ ht | badPc _ _ _ ht | unknown _ _ _ ht | raised _ _ _ _ _ _ _ _ ht =>
    exact absurd (by rw [ht]; rfl) hne
  | resolved x k hf hw hk ht => exact Or.inr ⟨by rw [ht]; rfl, hf, k, hk⟩
  | completed op i u hop hd hu hframe ht =>
    subst ht
    obtain ⟨x, rfl, hset⟩ := hframe.waitKey hne
    exact Or.inl ⟨op, x, hop, hd, hset⟩

end

/-- Settles O51: the framebuffer is written by an instruction whose frame has it; of the ports, `hostInitialize` alone
names it. -/
theorem onlyClearAndDrawWriteTheScreen : Obligations.OnlyClearAndDrawWriteTheScreen := by
  refine ⟨fun s t h hne => ?_, fun c s hc => ?_⟩
  · obtain ⟨op, i, u, hop, hd, hframe, hu⟩ := fb_outsideTheCycle.changed h hne
    obtain rfl | ⟨x, y, n, rfl⟩ := hframe.fb (by rwa [← hu])
    · exact ⟨op, hop, Or.inl hd⟩
    · exact ⟨op, hop, Or.inr ⟨x, y, n, hd⟩⟩
  · cases c with
    | hostInitialize => exact absurd rfl hc
    | loadProgram bytes => simp only [applyPort, loadProgram]; split <;> rfl
    | setKeyState index pressed => simp only [applyPort, setKeyState]; split <;> rfl
    | frameConsumed => rfl

/-- Settles O52: in the cycle only the resolution of a key wait writes a register, the one it waits for. -/
theorem onlyItsWritersChangeVF : Obligations.OnlyItsWritersChangeVF := by
  intro s t h hne
  cases step_kind h with
  | halted _ ht | stalled _ _ _ _ ht | badPc _ _ _ ht | unknown _ _ _ ht | raised _ _ _ _ _ _ _ _ ht =>
    exact absurd (by rw [ht]; rfl) hne
  | resolved x k hf hw hk ht =>
    left
    by_contra hx
    have hVF : VF ≠ x := fun e => hx (by rw [hw, e])
    have hread : t.reg VF = (s.setReg x (BitVec.ofNat 8 k.val)).reg VF := by rw [ht]; rfl
    rw [hread, State.reg_setReg, if_neg hVF] at hne
    exact hne rfl
  | completed op i u hop hd hu hframe ht =>
    subst ht
    exact Or.inr ⟨op, i, hop, hd, hframe.flag hne⟩

/-- Settles O53: the frames of the instructions, element by element, and the two writers of the key wait. -/
theorem controlElementsHaveOnlyTheirWriters : Obligations.ControlElementsHaveOnlyTheirWriters := by
  intro s t h
  refine ⟨fun hne => ?index, fun hne => ?stack, fun hne => ?sp, fun x ht hne => ?set, fun ht hne => ?cleared,
    step_key h, step_font h⟩
  case index =>
    obtain ⟨op, i, u, hop, hd, hframe, hu⟩ := index_outsideTheCycle.changed h hne
    obtain ⟨n, rfl⟩ | ⟨x, rfl⟩ | ⟨x, rfl⟩ := hframe.index (by rwa [← hu])
    exacts [⟨op, hop, Or.inl ⟨n, hd⟩⟩, ⟨op, hop, Or.inr (Or.inl ⟨x, hd⟩)⟩, ⟨op, hop, Or.inr (Or.inr ⟨x, hd⟩)⟩]
  case stack =>
    obtain ⟨op, i, u, hop, hd, hframe, hu⟩ := stack_outsideTheCycle.changed h hne
    obtain ⟨n, rfl⟩ := hframe.stack (by rwa [← hu])
    exact ⟨op, n, hop, hd⟩
  case sp =>
    obtain ⟨op, i, u, hop, hd, hframe, hu⟩ := sp_outsideTheCycle.changed h hne
    obtain rfl | ⟨n, rfl⟩ := hframe.sp (by rwa [← hu])
    exacts [⟨op, hop, Or.inl hd⟩, ⟨op, hop, Or.inr ⟨n, hd⟩⟩]
  case set =>
    obtain ⟨op, x', hop, hd, hset⟩ | ⟨hnone, -⟩ := step_waitKey h hne
    · cases ht.symm.trans hset
      exact ⟨op, hop, hd⟩
    · cases ht.symm.trans hnone
  case cleared =>
    obtain ⟨op, x, -, -, hset⟩ | ⟨-, hf, hkey⟩ := step_waitKey h hne
    · cases ht.symm.trans hset
    · exact ⟨hf, hkey⟩

/-- A port leaves the font region of a memory in canonical form. -/
theorem applyPort_fontRegion (c : PortCall) {s : State} (hwf : s.mem.wf = true) {a : Nat} (ha : a < 0x50) :
    (applyPort c s).mem.read a = s.mem.read a := by
  cases c with
  | hostInitialize => exact ((applyPort .hostInitialize s).mem.read_font rfl ha).trans (s.mem.read_font hwf ha).symm
  | loadProgram bytes =>
    simp only [applyPort, loadProgram]
    split
    · exact s.mem.read_writeAll_of_outside (Or.inl (Nat.lt_of_lt_of_le ha (by decide)))
    · rfl
  | setKeyState index pressed => simp only [applyPort, setKeyState]; split <;> rfl
  | frameConsumed => rfl

/-- Settles O54: a step and a port each leave the font region, and memory is written by an instruction whose frame has
it. -/
theorem fontRegionIsImmutable : Obligations.FontRegionIsImmutable := by
  refine ⟨fun e s t hwf h a ha => ?_, fun s t h hne => ?_⟩
  · cases e with
    | step => exact step_fontRegion h ha
    | port c => cases h; exact applyPort_fontRegion c hwf ha
  · obtain ⟨op, i, u, hop, hd, hframe, hu⟩ := mem_outsideTheCycle.changed h hne
    obtain ⟨x, rfl | rfl⟩ := hframe.mem (by rwa [← hu])
    exacts [⟨op, x, hop, Or.inl hd⟩, ⟨op, x, hop, Or.inr hd⟩]

/-- Settles O55: a halted step keeps the record, and no port but `hostInitialize` names it. -/
theorem haltEndsOnlyByInitialize : Obligations.HaltEndsOnlyByInitialize := by
  intro e s t r hs he h
  cases e with
  | step =>
    rw [applyEvent, step_halted (by simp [hs])] at h
    cases h
    exact hs
  | port c =>
    cases h
    cases c with
    | hostInitialize => exact absurd rfl he
    | loadProgram bytes => simp only [applyPort, loadProgram]; split <;> exact hs
    | setKeyState index pressed => simp only [applyPort, setKeyState]; split <;> exact hs
    | frameConsumed => exact hs

/-! ### What no instruction reads (R20, R31, R38)

Two states that differ in the keypad, ST, the tone end and `dirty` alone go on so, step by step. -/

/-- `s'` is `s` but for the keypad, which is `key`, and for ST with the tone end, and `dirty`; under `sameTone` ST and the
tone end are those of `s`, and under `sameDirty` so is `dirty`. -/
def AgreesBut (key : Vector Bool 16) (sameTone sameDirty : Prop) (s s' : State) : Prop :=
  ∃ st e d, s' = { s with key := key, ST := st, toneEnd := e, dirty := d } ∧
    (sameTone → st = s.ST ∧ e = s.toneEnd) ∧ (sameDirty → d = s.dirty)

section
variable {key : Vector Bool 16} {p q : Prop} {s s' t : State} (h : AgreesBut key p q s s')
include h

theorem AgreesBut.fault_eq : s'.fault = s.fault := by
  obtain ⟨_, _, _, rfl, -, -⟩ := h
  rfl

theorem AgreesBut.clearOutputs : AgreesBut key p q s.clearOutputs s'.clearOutputs := by
  obtain ⟨st, e, d, rfl, hp, hq⟩ := h
  exact ⟨st, false, d, rfl, fun w => ⟨(hp w).1, rfl⟩, hq⟩

theorem AgreesBut.takeFault (op : Option Word) (r : Raise) :
    AgreesBut key p q (s.takeFault op r) (s'.takeFault op r) := by
  obtain ⟨st, e, d, rfl, hp, hq⟩ := h
  exact ⟨st, false, d, rfl, fun w => ⟨(hp w).1, rfl⟩, hq⟩

theorem AgreesBut.resolveWait (x : Reg) (k : Fin 16) :
    AgreesBut key p q (s.resolveWait x k) (s'.resolveWait x k) := by
  obtain ⟨st, e, d, rfl, hp, hq⟩ := h
  exact ⟨st, e, d, rfl, hp, hq⟩

theorem AgreesBut.reportUnknown (op : Word) : AgreesBut key p q (s.reportUnknown op) (s'.reportUnknown op) := by
  obtain ⟨st, e, d, rfl, hp, hq⟩ := h
  exact ⟨st, e, d, rfl, hp, hq⟩

theorem AgreesBut.timerUpdate : AgreesBut key p q s.timerUpdate s'.timerUpdate := by
  obtain ⟨st, e, d, rfl, hp, hq⟩ := h
  refine ⟨_, _, d, rfl, fun w => ?_, hq⟩
  obtain ⟨rfl, rfl⟩ := hp w
  exact ⟨rfl, rfl⟩

/-- A key test does the same from both states where the keypads agree. -/
theorem AgreesBut.keyTest {i : Instr} (hi : raisedBy .keyIndexOutOfRange i = true) (hkey : key = s.key)
    (ht : exec i s = .next t) : ∃ t', exec i s' = .next t' ∧ AgreesBut key p q t t' := by
  obtain ⟨x, wanted, hexec⟩ := exec_keyTest hi
  have hraise := h.takeFault
  obtain ⟨st, e, d, rfl, hp, hq⟩ := h
  subst hkey
  rw [hexec] at ht ⊢
  cases hk : keyOf (s.reg x) with
  | none =>
    rw [State.keySkip_of_none _ _ hk] at ht
    cases ht
    exact ⟨_, congrArg _ (State.keySkip_of_none _ wanted hk), hraise _ _⟩
  | some k =>
    rw [State.keySkip_of_some _ _ hk] at ht
    cases ht
    exact ⟨_, congrArg _ (State.keySkip_of_some _ wanted hk), st, e, d, rfl, hp, hq⟩

/-- An instruction that does not test a key does the same from both states; a key test does where the keypads agree. -/
theorem AgreesBut.exec {i : Instr} (hkey : key = s.key ∨ raisedBy .keyIndexOutOfRange i = false)
    (ht : exec i s = .next t) : ∃ t', exec i s' = .next t' ∧ AgreesBut key p q t t' := by
  by_cases hi : raisedBy .keyIndexOutOfRange i = true
  · exact h.keyTest hi (hkey.resolve_right fun hno => by simp [hno] at hi) ht
  have hraise := h.takeFault
  obtain ⟨st, e, d, rfl, hp, hq⟩ := h
  cases i
  case ret =>
    obtain h0 | ⟨j, hj⟩ := sp_eq_zero_or_succ s
    · rw [exec_ret_of_empty s h0] at ht
      cases ht; exact ⟨_, exec_ret_of_empty _ h0, hraise _ _⟩
    · rw [exec_ret_of_sp s j hj] at ht
      cases ht; exact ⟨_, exec_ret_of_sp _ j (by exact hj), st, e, d, rfl, hp, hq⟩
  case callAddr nnn =>
    simp only [exec_callAddr] at ht ⊢
    split_ifs at ht ⊢ <;> cases ht
    exacts [⟨_, rfl, st, e, d, rfl, hp, hq⟩, ⟨_, rfl, hraise _ _⟩]
  case skpVx | sknpVx => exact absurd rfl hi
  case drwVxVyNibble x y n =>
    by_cases hfits : n.val = 0 ∨ s.I.toNat + n.val ≤ 4096
    · rw [exec_drwVxVyNibble_of_fits x y n s hfits] at ht
      cases ht; exact ⟨_, exec_drwVxVyNibble_of_fits x y n _ hfits, st, e, true, rfl, hp, fun _ => rfl⟩
    · rw [exec_drwVxVyNibble, if_neg hfits] at ht
      cases ht; exact ⟨_, (exec_drwVxVyNibble _ x y n).trans (if_neg hfits), hraise _ _⟩
  case ldBVx | ldMemVx =>
    simp only [exec_ldBVx, exec_ldMemVx] at ht ⊢
    split_ifs at ht ⊢ <;> cases ht
    exacts [⟨_, rfl, hraise _ _⟩, ⟨_, rfl, st, e, d, rfl, hp, hq⟩, ⟨_, rfl, hraise _ _⟩]
  case ldVxMem x =>
    simp only [exec_ldVxMem] at ht ⊢
    split_ifs at ht ⊢ <;> cases ht
    exacts [⟨_, rfl, st, e, d, rfl, hp, hq⟩, ⟨_, rfl, hraise _ _⟩]
  case cls => cases ht; exact ⟨_, rfl, st, e, true, rfl, hp, fun _ => rfl⟩
  case ldSTVx x => cases ht; exact ⟨_, rfl, s.reg x, e, d, rfl, fun w => ⟨rfl, (hp w).2⟩, hq⟩
  all_goals cases ht; exact ⟨_, rfl, st, e, d, rfl, hp, hq⟩

theorem AgreesBut.keyWaitStep (hkey : key = s.key) (x : Reg) :
    AgreesBut key p q (s.keyWaitStep x) (s'.keyWaitStep x) := by
  have hkey' : s'.key = s.key := by
    obtain ⟨_, _, _, rfl, -, -⟩ := h
    exact hkey
  simp only [State.keyWaitStep, hkey']
  split
  · exact h
  · exact (h.resolveWait x _).timerUpdate

theorem AgreesBut.endStep : ∃ t', endStep (.next s') = .next t' ∧
    AgreesBut key p q (if s.fault.isSome then s else s.timerUpdate) t' := by
  refine ⟨_, endStep_next s', ?_⟩
  rw [h.fault_eq]
  split
  · exact h
  · exact h.timerUpdate

/-- A step outside a key wait whose instruction does not test a key does the same from both states; every step does where
the keypads agree. -/
theorem AgreesBut.step
    (hkey : key = s.key ∨ (s.waitKey = none ∧
      ∀ i, FetchesWord s s.fetchWord → decodeWord s.fetchWord = some i → raisedBy .keyIndexOutOfRange i = false))
    (ht : step s = .next t) : ∃ t', step s' = .next t' ∧ AgreesBut key p q t t' := by
  have hclear := h.clearOutputs
  have hraise := h.takeFault
  have hfetched : s'.fault = s.fault ∧ s'.waitKey = s.waitKey ∧ s'.pc = s.pc ∧ s'.fetchWord = s.fetchWord := by
    obtain ⟨_, _, _, rfl, -, -⟩ := h
    exact ⟨rfl, rfl, rfl, rfl⟩
  obtain ⟨hfault, hwait, hpc, hword⟩ := hfetched
  obtain ⟨hf, hs⟩ | ⟨x, hf, hw, hs⟩ | ⟨hf, hw, hp, hs⟩ | ⟨hf, hw, hp, hd, hs⟩ | ⟨i, hf, hw, hp, hd, hs⟩ :=
    step_cases s
  all_goals rw [hs] at ht
  · cases ht
    exact ⟨_, step_halted (by rwa [hfault]), hclear⟩
  · cases ht
    have hsame : key = s.key := hkey.resolve_right fun hno => by simp [hw] at hno
    exact ⟨_, step_waiting (hfault.trans hf) (hwait.trans hw), hclear.keyWaitStep hsame x⟩
  · cases ht
    exact ⟨_, step_badFetch (hfault.trans hf) (hwait.trans hw) (by rwa [hpc]), hraise _ _⟩
  · cases ht
    refine ⟨_, step_unknown (hfault.trans hf) (hwait.trans hw) (by rwa [hpc]) (by rwa [hword]), ?_⟩
    rw [hword]
    exact (hclear.reportUnknown _).timerUpdate
  · obtain ⟨u, hu⟩ := exec_next i s.clearOutputs
    have htests : key = s.key ∨ raisedBy .keyIndexOutOfRange i = false :=
      hkey.imp_right fun hno => hno.2 i ((fetchesWord_iff s _).2 ⟨⟨hf, hw, hp⟩, rfl⟩) hd
    obtain ⟨u', hu', hagrees⟩ := hclear.exec htests hu
    rw [step_exec (hfault.trans hf) (hwait.trans hw) (by rwa [hpc]) (by rw [hword]; exact hd), hu']
    rw [hu] at ht
    cases ht
    exact hagrees.endStep

end

/-- The two key tests, by the condition they raise. -/
theorem raisedBy_keyIndexOutOfRange_eq_false {i : Instr} (hskp : ∀ x, i ≠ .skpVx x) (hsknp : ∀ x, i ≠ .sknpVx x) :
    raisedBy .keyIndexOutOfRange i = false := by
  cases i
  case skpVx x => exact absurd rfl (hskp x)
  case sknpVx x => exact absurd rfl (hsknp x)
  all_goals rfl

/-- Settles O56: the states agree but for the keypad, and the step tests no key. -/
theorem onlyKeyInstructionsReadTheKeypad : Obligations.OnlyKeyInstructionsReadTheKeypad := by
  intro s t key hw hno ht
  have hagrees : AgreesBut key True True s { s with key := key } :=
    ⟨s.ST, s.toneEnd, s.dirty, rfl, fun _ => ⟨rfl, rfl⟩, fun _ => rfl⟩
  have htests (i : Instr) (hop : FetchesWord s s.fetchWord) (hd : decodeWord s.fetchWord = some i) :
      raisedBy .keyIndexOutOfRange i = false :=
    raisedBy_keyIndexOutOfRange_eq_false (fun x hi => (hno _ x hop).1 (hi ▸ hd)) fun x hi => (hno _ x hop).2 (hi ▸ hd)
  obtain ⟨t', ht', st, e, d, rfl, htone, hdirty⟩ := hagrees.step (Or.inr ⟨hw, htests⟩) ht
  obtain ⟨rfl, rfl⟩ := htone trivial
  obtain rfl := hdirty trivial
  exact ht'

/-- Settles O57: the states agree but for ST, or but for `dirty`, with one keypad, which the step leaves. -/
theorem soundTimerAndDirtyReachOnlyTheirOutputs : Obligations.SoundTimerAndDirtyReachOnlyTheirOutputs := by
  intro s t ht
  have hkey := step_key ht
  refine ⟨fun st => ?_, fun d => ?_⟩
  · have hagrees : AgreesBut s.key False True s { s with ST := st } :=
      ⟨st, s.toneEnd, s.dirty, rfl, False.elim, fun _ => rfl⟩
    obtain ⟨t', ht', st', e, d, rfl, -, hdirty⟩ := hagrees.step (Or.inl rfl) ht
    obtain rfl := hdirty trivial
    exact ⟨st', e, by rw [ht', ← hkey]⟩
  · have hagrees : AgreesBut s.key True False s { s with dirty := d } :=
      ⟨s.ST, s.toneEnd, d, rfl, fun _ => ⟨rfl, rfl⟩, False.elim⟩
    obtain ⟨t', ht', st, e, d', rfl, htone, -⟩ := hagrees.step (Or.inl rfl) ht
    obtain ⟨rfl, rfl⟩ := htone trivial
    exact ⟨d', by rw [ht', ← hkey]⟩

end Sys2Proof.Machine
end
